-- ==== Sys2Proof/Word.lean ====
section
/-! DEFINITION. The three bit-vector types of the block: a 32-bit word, a message byte and a
command word (spec rules R7, R9). -/

namespace Sys2Proof

/-- A 32-bit value: `ACC`, `crc_out`, the operand of CHK (rule R7, `W = 32`). -/
abbrev Word := BitVec 32

/-- A message byte, the operand of UPD8 (rule R7, `B = 8`). -/
abbrev Byte := BitVec 8

/-- A command word on the `cmd` port (rules R7 and R44, `CMDW = 34`). -/
abbrev CmdWord := BitVec 34

end Sys2Proof
end

