-- ==== Sys2Proof/Syntax.lean ====
section
/-! DEFINITION. The commands of the block, one constructor per row of the opcode table
(rule R45). -/

namespace Sys2Proof

/-- A command with its operand. Ignored bits of a command word are no part of it (rule R50). -/
inductive Instr where
  /-- NOP (rule R59). -/
  | nop
  /-- INIT (rule R60). -/
  | init
  /-- UPD8 with its byte `d` (rules R47, R71). -/
  | upd8 (d : Byte)
  /-- CHK with its expected value `exp` (rules R48, R83). -/
  | chk (exp : Word)
  deriving DecidableEq, Repr

end Sys2Proof
end

