-- ==== Sys2Proof/WellFormed.lean ====
section
/-! DEFINITION. The range checks on numbers that stand for a command word or an operand.
Every value of `Instr` is well-formed, because its operand types hold exactly the legal operands
(rules R47, R48: every byte and every 32-bit value is legal), so the checks stand where a number
enters: a command word (rule R44) and the operands of the written notation (rule R52). -/

namespace Sys2Proof

/-- A number is a command word when it fits the 34 bits of the `cmd` port (rule R44). -/
def isCommandNumber (n : Nat) : Bool := n < 2 ^ 34

/-- The operand of `UPD8` is "a number 0 to 255" (rule R52). -/
def isByteNumber (n : Nat) : Bool := n ≤ 255

/-- The operand of `CHK` is "a number 0 to 4294967295" (rule R52). -/
def isWordNumber (n : Nat) : Bool := n ≤ 4294967295

/-- A quoted character stands "for its ASCII code" (rule R52), so it must have one. -/
def isAsciiChar (c : Char) : Bool := c.toNat < 128

end Sys2Proof
end

