-- ==== Sys2Proof/Decode.lean ====
section
/-! DEFINITION. The command word: its fields, the decoder, the encoder and the canonical form
(rules R44 to R51). -/

namespace Sys2Proof

/-- `op = cmd[33:32]` (rule R44). -/
def opField (w : CmdWord) : BitVec 2 := w.extractLsb' 32 2

/-- `arg = cmd[31:0]`, which is also `exp` (rule R44). -/
def argField (w : CmdWord) : Word := w.extractLsb' 0 32

/-- `d = cmd[7:0]` (rules R44, R47). -/
def byteField (w : CmdWord) : Byte := w.extractLsb' 0 8

/-- The total decoder of rule R50; ignored bits are dropped (rule R49). -/
def decode (w : CmdWord) : Instr :=
  if opField w = 0 then .nop
  else if opField w = 1 then .init
  else if opField w = 2 then .upd8 (byteField w)
  else .chk (argField w)

/-- The canonical command word of rule R46: the opcode, ignored bits zero, the operand. -/
def encode : Instr → CmdWord
  | .nop => 0b00#2 ++ 0#32
  | .init => 0b01#2 ++ 0#32
  | .upd8 d => 0b10#2 ++ 0#24 ++ d
  | .chk exp => 0b11#2 ++ exp

/-- A word is canonical when the bits its command ignores are zero (rules R46, R49): `cmd[31:0]`
for NOP and INIT, `cmd[31:8]` for UPD8, none for CHK. -/
def isCanonical (w : CmdWord) : Bool :=
  if opField w = 0 ∨ opField w = 1 then argField w == 0
  else if opField w = 2 then w.extractLsb' 8 24 == 0#24
  else true

/-- The `match` column of the opcode table (rule R45), to be read under the mask
`0x300000000`. -/
def matchWord : Instr → CmdWord
  | .nop => 0x000000000
  | .init => 0x100000000
  | .upd8 _ => 0x200000000
  | .chk _ => 0x300000000

/-- Why a number is no command. -/
inductive DecodeError where
  /-- The number does not fit the 34 bits of the `cmd` port (rule R44). -/
  | notACommandWord
  deriving DecidableEq, Repr

/-- The command word a number stands for (bit 0 least significant, rule R9), or the reason it
is none. -/
def wordOfNumber (n : Nat) : Except DecodeError CmdWord :=
  if isCommandNumber n then .ok (BitVec.ofNat 34 n) else .error .notACommandWord

/-- The decoder on numbers. -/
def decodeNumber (n : Nat) : Except DecodeError Instr :=
  match wordOfNumber n with
  | .ok w => .ok (decode w)
  | .error e => .error e

/-- The command the decoder reads from the low `nbits` bits of `w`, numbered as the opcode table
numbers them. -/
def decodeTableWord (nbits w : Nat) : Option Instr :=
  match decodeNumber (w % 2 ^ nbits) with
  | .ok i => some i
  | .error _ => none

end Sys2Proof
end

