-- ==== Sys2Proof/Config.lean ====
section
/-! DEFINITION. What is fixed when the block is built: the constants of rules R2, R3, R7 and the
build parameter `IMPL` (rules R7, R8). Nothing here has an open value, so there is no free value. -/

namespace Sys2Proof.Config

/-- The generator polynomial without its x^32 term, the coefficient of x^31 in bit 31
(rules R3, R63). -/
def poly : Word := 0x04C11DB7

/-- `POLY_R`, the same polynomial bit-reversed; the only form the block uses (rules R3, R63). -/
def polyR : Word := 0xEDB88320

/-- `INIT_V`, the value of `ACC` at the start of a message (rules R2 (c), R7). -/
def initV : Word := 0xFFFFFFFF

/-- `XOROUT`, the final complement on the output (rules R3, R7, R79). -/
def xorOut : Word := 0xFFFFFFFF

/-- `IMPL`: how one byte is absorbed (rule R7). -/
inductive Impl where
  | bitwise
  | lut
  deriving DecidableEq, Repr

/-- DESIGN CHOICE (log entry 3, safe): the model fixes `IMPL = BITWISE`, which rule R8 allows,
since no state or output depends on it. -/
def impl : Impl := .bitwise

end Sys2Proof.Config
end

