-- ==== Sys2Proof/Machine/State.lean ====
section
/-! DEFINITION. The state of the machine: the block's three elements, or its power-on state
without values, and the input samples the host has still to present (rules R12, R13, R25, R118);
the reasons a step can stop; the state after reset (rule R24). -/

namespace Sys2Proof.Machine

/-- The three state elements of the block, 34 bits in all (rule R13). -/
structure Regs where
  /-- `ACC`, the running register before the final complement (rule R14). -/
  acc : Word
  /-- `MM`, a CHK since the last INIT or reset found a difference (rule R15). -/
  mm : Bool
  /-- `CK`, a CHK was executed since the last INIT or reset (rule R16). -/
  ck : Bool
  deriving DecidableEq, Repr

/-- The block: the power-on state, in which the elements have no value, or a defined state
(rules R13, R25; DESIGN CHOICE, log entry 7). -/
inductive Block where
  | powerOn
  | defined (r : Regs)
  deriving DecidableEq, Repr

/-- What the block samples at one step: `rst` and the command word (rules R12, R17). -/
structure Sample where
  rst : Bool
  cmd : CmdWord
  deriving DecidableEq, Repr

/-- The machine: the block, and the `(rst, cmd)` pairs of the run that the host has still to
present, oldest first (rules R12, R118; DESIGN CHOICE, log entry 1). -/
structure State where
  block : Block
  inputs : List Sample
  deriving DecidableEq, Repr

/-- Why the machine stops with a fault. -/
inductive Fault where
  /-- Raised by UPD8 and by CHK when the block is in its power-on state, which holds no value
  they could compute from (rule R25). Safe: the hardware would go on with some value. -/
  | powerOnRead
  deriving DecidableEq, Repr

/-- Why a step has no meaning. -/
inductive Refusal where
  /-- Raised by `exec` for a command that has no meaning yet; no command is left so. Safe. -/
  | notModelled (mnemonic : String)
  /-- Raised by `step` when the host's list of samples is used up: the run has ended, and the
  spec says nothing of a state after it (rule R118, U10). DESIGN CHOICE (log entry 2), safe: no
  claim reaches past the run. -/
  | endOfRun
  deriving DecidableEq, Repr

/-- The register values after a step with `rst = 1` or after INIT (rules R24, R60). -/
def Regs.start : Regs := { acc := Config.initV, mm := false, ck := false }

/-- The machine right after reset (rule R24); the host has presented nothing yet (log
entry 1). -/
def State.reset : State := { block := .defined Regs.start, inputs := [] }

/-- The machine at power-on, before any reset or INIT (rule R25). -/
def State.powerOn : State := { block := .powerOn, inputs := [] }

end Sys2Proof.Machine
end

