-- ==== Sys2Proof/Machine/Operands.lean ====
section
/-! DEFINITION. The operand forms: the zero-extended byte of UPD8 (rule R47), and the big-endian
view of a 32-bit value that relates the operand of CHK and the result to a chunk's crc field
(rules R32, R33, R48). -/

namespace Sys2Proof.Machine

/-- `zext_32(d)`: the byte on bits 7 to 0, zeros above (rules R10, R47). -/
def zext32 (d : Byte) : Word := d.zeroExtend 32

/-- `be32(v)`: the four bytes of a 32-bit value, most significant first (rule R32). -/
def be32 (v : Word) : List Byte :=
  [v.extractLsb' 24 8, v.extractLsb' 16 8, v.extractLsb' 8 8, v.extractLsb' 0 8]

/-- `{c0, c1, c2, c3}`: the 32-bit value of four bytes read big-endian (rule R33). -/
def fromBe32 (c0 c1 c2 c3 : Byte) : Word := c0 ++ c1 ++ c2 ++ c3

end Sys2Proof.Machine
end

