-- ==== Sys2Proof/Machine/Crc.lean ====
section
/-! DEFINITION. The CRC arithmetic: one bit, one byte in its two forms, a byte string
(rules R65 to R72), and the inverse of the one-bit update (rule R75). -/

namespace Sys2Proof.Machine

/-- `step1`: the update for one message bit already exclusive-ored into bit 0 (rule R65). -/
def step1 (a : Word) : Word :=
  if a.getLsbD 0 then (a >>> 1) ^^^ Config.polyR else a >>> 1

/-- `step1^k(a)` (rule R10). -/
def step1N : Nat → Word → Word
  | 0, a => a
  | k + 1, a => step1N k (step1 a)

/-- `step8_bitwise`, the polynomial-based form (rule R66). -/
def step8Bitwise (a : Word) (d : Byte) : Word := step1N 8 (a ^^^ zext32 d)

/-- The bit-serial form of the same update: for each listed bit position of `d`, in list order,
that bit is exclusive-ored into bit 0 of the register and `step1` is applied (rule R66). -/
def feedBits (d : Byte) : List Nat → Word → Word
  | [], a => a
  | k :: ks, a => feedBits d ks (step1 (a ^^^ (if d.getLsbD k then 1 else 0)))

/-- `LUT[i]`, by its definition (rules R67, R91). -/
def lut (i : Byte) : Word := step1N 8 (zext32 i)

/-- `idx = (a ^ zext_32(d))[7:0]` (rule R69). -/
def lutIndex (a : Word) (d : Byte) : Byte := (a ^^^ zext32 d).extractLsb' 0 8

/-- `step8_lut`, the LUT-driven form (rule R69). -/
def step8Lut (a : Word) (d : Byte) : Word := lut (lutIndex a d) ^^^ (a >>> 8)

/-- `step8`, in the form the build parameter selects (rules R8, R70). -/
def step8 (impl : Config.Impl) (a : Word) (d : Byte) : Word :=
  match impl with
  | .bitwise => step8Bitwise a d
  | .lut => step8Lut a d

/-- `absorb(a, m)`: the register after the bytes of `m` in list order (rule R72). -/
def absorb (a : Word) : List Byte → Word
  | [] => a
  | b :: bs => absorb (step8 Config.impl a b) bs

/-- `CRC32(m)` (rule R72). -/
def crc32 (m : List Byte) : Word := absorb Config.initV m ^^^ Config.xorOut

/-- The inverse of `step1` (rule R75). -/
def step1Inv (b : Word) : Word :=
  if b.getLsbD 31 then ((b ^^^ Config.polyR) <<< 1) ||| 1 else b <<< 1

end Sys2Proof.Machine
end

