-- ==== Sys2Proof/Machine/Flags.lean ====
section
/-! DEFINITION. The flag computations of CHK (rule R83) and the verdict the host reads from the
flags (rule R26). -/

namespace Sys2Proof.Machine

/-- `crc_out` as a function of the accumulator: its bitwise complement (rules R18, R79). -/
def finalize (acc : Word) : Word := acc ^^^ Config.xorOut

/-- `neq`: the expected value differs from `crc_out`; all 32 bits are compared (rule R83). -/
def mismatch (acc exp : Word) : Bool := finalize acc != exp

/-- `MM | neq`: a difference sets `MM`, nothing in CHK clears it (rules R15, R83). -/
def mmAfterCheck (r : Regs) (exp : Word) : Bool := r.mm || mismatch r.acc exp

/-- What the host reads from the flags (rule R26). -/
inductive Verdict where
  | notChecked
  | pass
  | fail
  deriving DecidableEq, Repr

/-- The verdict of a pair of flags (rule R26). -/
def verdict (mm ck : Bool) : Verdict :=
  if ck then (if mm then .fail else .pass) else .notChecked

end Sys2Proof.Machine
end

