-- ==== Sys2Proof/Machine/Ops.lean ====
section
/-! DEFINITION. The shared operations on the state: loading the start values (INIT and reset),
absorbing a byte, recording a comparison, which is the block's only failure report, and taking the
next input sample. The block has no memory, no general register, no trap (rules R19, R28, R92). -/

namespace Sys2Proof.Machine

/-- `ACC <- 0xFFFFFFFF ; MM <- 0 ; CK <- 0`, whatever the block held: the effect of INIT and of
reset (rules R24, R60, R104). It is also the block's only counterpart of a return from a failure
(rule R98). -/
def startMessage (s : State) : State := { s with block := .defined Regs.start }

/-- An effect that reads the three elements: it runs from a defined state and faults from the
power-on state, which has no values (rule R25). -/
def onDefined (s : State) (f : Regs → Regs) : Host.Outcome State Fault Refusal :=
  match s.block with
  | .powerOn => .fault .powerOnRead
  | .defined r => .next { s with block := .defined (f r) }

/-- `ACC <- step8(ACC, d)`, flags kept (rule R71). -/
def absorbByte (impl : Config.Impl) (d : Byte) (r : Regs) : Regs :=
  { r with acc := step8 impl r.acc d }

/-- `MM <- MM | neq ; CK <- 1`, `ACC` unchanged (rule R83). What a difference does is all the
"trap entry" the block has (rules R93, R97). -/
def recordCheck (exp : Word) (r : Regs) : Regs :=
  { r with mm := mmAfterCheck r exp, ck := true }

/-- The next sample of the run and the state that waits for the one after it; `none` when the
run has ended (rules R12, R118). -/
def takeSample (s : State) : Option (Sample × State) :=
  match s.inputs with
  | [] => none
  | p :: ps => some (p, { s with inputs := ps })

/-- The host presents a sample before those already waiting. -/
def present (p : Sample) (s : State) : State := { s with inputs := p :: s.inputs }

end Sys2Proof.Machine
end

