-- ==== Sys2Proof/Machine/Check.lean ====
section
/-! DEFINITION. The check command CHK (rule R83). -/

namespace Sys2Proof.Machine

/-- CHK: `MM <- MM | (crc_out != exp) ; CK <- 1`; from the power-on state a fault
(rules R25, R83). -/
def execChk (exp : Word) (s : State) : Host.Outcome State Fault Refusal :=
  onDefined s (recordCheck exp)

end Sys2Proof.Machine
end

