-- ==== Sys2Proof/Machine/Control.lean ====
section
/-! DEFINITION. The control commands NOP and INIT (rules R59, R60). -/

namespace Sys2Proof.Machine

/-- NOP: nothing is written, from any state (rules R25, R59). -/
def execNop (s : State) : Host.Outcome State Fault Refusal := .next s

/-- INIT: the start values, from any state, the power-on state too (rules R25, R60). -/
def execInit (s : State) : Host.Outcome State Fault Refusal := .next (startMessage s)

end Sys2Proof.Machine
end

