-- ==== Sys2Proof/Machine/Update.lean ====
section
/-! DEFINITION. The data command UPD8 (rule R71). -/

namespace Sys2Proof.Machine

/-- UPD8: `ACC <- step8(ACC, d)`; from the power-on state a fault (rules R25, R71). -/
def execUpd8 (d : Byte) (s : State) : Host.Outcome State Fault Refusal :=
  onDefined s (absorbByte Config.impl d)

end Sys2Proof.Machine
end

