-- ==== Sys2Proof/Machine/Dispatch.lean ====
section
/-! DEFINITION. One arm per command: each calls its meaning (rule R22, the cases of `op`). -/

namespace Sys2Proof.Machine

def exec (i : Instr) (s : State) : Host.Outcome State Fault Refusal :=
  match i with
  | .nop => Sys2Proof.Machine.execNop s
  | .init => Sys2Proof.Machine.execInit s
  | .upd8 d => Sys2Proof.Machine.execUpd8 d s
  | .chk exp => Sys2Proof.Machine.execChk exp s

end Sys2Proof.Machine
end

