-- ==== Sys2Proof/Machine/Clock.lean ====
section
/-! DEFINITION. One rising edge of `clk` on a sampled `(rst, cmd)` pair: the step function of
rule R22. -/

namespace Sys2Proof.Machine

/-- `step(s, rst, cmd)` of rule R22: reset wins over the command, which is then not executed
(rules R96, R104); otherwise the decoded command runs. -/
def clock (p : Sample) (s : State) : Host.Outcome State Fault Refusal :=
  if p.rst then .next (startMessage s) else exec (decode p.cmd) s

/-- The sample that presents a command in its canonical word, `rst = 0` (rules R46, R56). -/
def sampleOf (i : Instr) : Sample := { rst := false, cmd := encode i }

/-- The machine with the command word numbered `w` presented next, `rst = 0`. A number that is no
command word cannot stand on the port: nothing is then presented at all (DESIGN CHOICE, log entry 6). -/
def presentNumber (s : State) (w : Nat) : State :=
  match wordOfNumber w with
  | .ok c => present { rst := false, cmd := c } s
  | .error _ => { s with inputs := [] }

end Sys2Proof.Machine
end

