-- ==== Sys2Proof/Machine/Step.lean ====
section
/-! DEFINITION. One step of the machine: the next sample is taken and clocked in; when the host's
list has ended there is no step (rules R12, R118). -/

namespace Sys2Proof.Machine

/-- One step: the oldest waiting sample is taken and clocked in; the run ends with the list
(rules R12, R22, R118). -/
def step (s : State) : Host.Outcome State Fault Refusal :=
  match takeSample s with
  | none => .refused .endOfRun
  | some (p, t) => clock p t

/-- The machine with the command word in the low `nbits` bits of `w` presented as its next sample
(log entries 1, 6). -/
def State.withFetchWord (s : State) (nbits w : Nat) : State := presentNumber s (w % 2 ^ nbits)

end Sys2Proof.Machine
end

