-- ==== Sys2Proof/Machine/Variants.lean ====
section
/-! DEFINITION. The function by its parameter set (rule R3): the plain most-significant-bit-first
CRC with optional reflection of input and output, which is independent of the right-shifting form
the block uses. Its other instances are the near variants the block is not (rule R78, and
`95_test_vectors.md` section 4). PRESUMED (log entry 9): the parameter sets of the named variants
and the length bytes of POSIX `cksum`; nothing of the block depends on them. -/

namespace Sys2Proof.Machine

/-- The parameters `(poly, init, refin, refout, xorout)` of a 32-bit CRC (rule R3). -/
structure Params where
  poly : Word
  init : Word
  refin : Bool
  refout : Bool
  xorout : Word
  deriving DecidableEq, Repr

/-- `k` left shifts of the unreflected register; the constant is added when a 1 leaves at the
top. -/
def Params.shift (p : Params) : Nat → Word → Word
  | 0, a => a
  | k + 1, a => p.shift k (if a.getLsbD 31 then (a <<< 1) ^^^ p.poly else a <<< 1)

/-- One byte into the top of the unreflected register, reversed first when `refin`. -/
def Params.feed (p : Params) (a : Word) (b : Byte) : Word :=
  p.shift 8 (a ^^^ ((if p.refin then b.reverse else b).zeroExtend 32 <<< 24))

/-- The register after a byte string. -/
def Params.register (p : Params) : Word → List Byte → Word
  | a, [] => a
  | a, b :: bs => p.register (p.feed a b) bs

/-- The CRC of a byte string under a parameter set (rule R3). -/
def Params.crc (p : Params) (m : List Byte) : Word :=
  (if p.refout then (p.register p.init m).reverse else p.register p.init m) ^^^ p.xorout

/-- CRC-32/ISO-HDLC, the function of the block (rule R3). -/
def isoHdlc : Params :=
  { poly := 0x04C11DB7, init := 0xFFFFFFFF, refin := true, refout := true, xorout := 0xFFFFFFFF }

/-- The final complement forgotten (JAMCRC). -/
def jamCrc : Params := { isoHdlc with xorout := 0 }

/-- Initial value 0, with the final complement. -/
def zeroInit : Params := { isoHdlc with init := 0 }

/-- Initial value 0 and no final complement. -/
def zeroInitPlain : Params := { isoHdlc with init := 0, xorout := 0 }

/-- Bytes taken most significant bit first into the reflected register. -/
def msbFirst : Params := { isoHdlc with refin := false }

/-- Unreflected, initial value all ones, final complement (BZIP2). -/
def bzip2 : Params := { isoHdlc with refin := false, refout := false }

/-- Unreflected, initial value all ones, no complement (MPEG-2). -/
def mpeg2 : Params := { bzip2 with xorout := 0 }

/-- Unreflected, initial value 0, final complement (CKSUM, without length). -/
def cksum : Params := { bzip2 with init := 0 }

/-- The bytes of a length, least significant first, no leading zeros; `fuel` bounds their number. -/
def lengthBytes : Nat → Nat → List Byte
  | 0, _ => []
  | fuel + 1, n => if n = 0 then [] else BitVec.ofNat 8 n :: lengthBytes fuel (n / 256)

/-- POSIX `cksum`: CKSUM with the length bytes appended. -/
def posixCksum (m : List Byte) : Word := cksum.crc (m ++ lengthBytes m.length m.length)

end Sys2Proof.Machine
end

