-- ==== Sys2Proof/Machine/Outputs.lean ====
section
/-! DEFINITION. The output ports as functions of the current state alone (rules R18, R56, R79).
From the power-on state there is no output value to read (rule R25, U2; log entry 7). -/

namespace Sys2Proof.Machine

/-- `(crc_out, mm_out, ck_out)` (rule R56). -/
structure Obs where
  crcOut : Word
  mmOut : Bool
  ckOut : Bool
  deriving DecidableEq, Repr

/-- The outputs of the three elements (rule R18). -/
def Regs.outputs (r : Regs) : Obs :=
  { crcOut := finalize r.acc, mmOut := r.mm, ckOut := r.ck }

/-- The observation of a state (rule R56); `none` at power-on (rule R25). -/
def State.obs (s : State) : Option Obs :=
  match s.block with
  | .powerOn => none
  | .defined r => some r.outputs

/-- The `crc_out` port (rule R18). -/
def State.crcOut (s : State) : Option Word := s.obs.map Obs.crcOut

/-- The `mm_out` port (rule R18). -/
def State.mmOut (s : State) : Option Bool := s.obs.map Obs.mmOut

/-- The `ck_out` port (rule R18). -/
def State.ckOut (s : State) : Option Bool := s.obs.map Obs.ckOut

/-- The verdict the host reads from the flag outputs (rule R26). -/
def State.verdict (s : State) : Option Verdict :=
  s.obs.map fun o => Sys2Proof.Machine.verdict o.mmOut o.ckOut

end Sys2Proof.Machine
end

