-- ==== Sys2Proof/Machine/Chunk.lean ====
section
/-! DEFINITION. What the host feeds and where the result goes: the message of a chunk
(rules R29, R30) and the byte layout of a chunk (rule R35). The host holds all of it; none of it is
state of the block (rule R23 (a)). -/

namespace Sys2Proof.Machine

/-- The four type bytes of a chunk, raw, in file order; no validation (rule R29). -/
structure ChunkType where
  t0 : Byte
  t1 : Byte
  t2 : Byte
  t3 : Byte
  deriving DecidableEq, Repr

/-- The type bytes in file order (rule R30). -/
def ChunkType.bytes (t : ChunkType) : List Byte := [t.t0, t.t1, t.t2, t.t3]

/-- What the host has before the crc field is known: type and payload (rule R81). -/
structure Chunk where
  ctype : ChunkType
  payload : List Byte
  deriving DecidableEq, Repr

/-- The message of a chunk: its type bytes, then its payload bytes (rules R29, R30). -/
def Chunk.message (c : Chunk) : List Byte := c.ctype.bytes ++ c.payload

/-- The payload's length is a `u32` (rule R35). -/
def Chunk.fits (c : Chunk) : Bool := c.payload.length < 2 ^ 32

/-- The value of the length field (rule R35). -/
def Chunk.length (c : Chunk) : Word := BitVec.ofNat 32 c.payload.length

/-- The bytes of a chunk with a given checksum: length, type, payload, crc, the two numbers
big-endian (rules R32, R35). -/
def Chunk.wire (c : Chunk) (crc : Word) : List Byte :=
  be32 c.length ++ c.ctype.bytes ++ c.payload ++ be32 crc

/-- The 8 signature bytes before the chunks of a file; never fed to the block (rules R6, R35). -/
def fileSignature : List Byte := [0x89, 0x50, 0x4E, 0x47, 0x0D, 0x0A, 0x1A, 0x0A]

/-- The bytes of a file: the signature, then the chunks, each with its checksum (rule R35). -/
def fileBytes (cs : List (Chunk × Word)) : List Byte :=
  fileSignature ++ cs.flatMap fun p => p.1.wire p.2

/-- A chunk cut out of an input: type, payload and the four stored crc bytes (rule R85). -/
structure RawChunk where
  chunk : Chunk
  c0 : Byte
  c1 : Byte
  c2 : Byte
  c3 : Byte
  deriving DecidableEq, Repr

/-- `storedCrc`: the four crc bytes read big-endian (rules R33, R48). -/
def RawChunk.stored (r : RawChunk) : Word := fromBe32 r.c0 r.c1 r.c2 r.c3

/-- The errors of verifying a chunk that the host reports (rules R85, R94, R96). -/
inductive ChunkError where
  /-- Fewer than eight bytes, so no length and type to read (DESIGN CHOICE, log entry 5). -/
  | shortHeader
  /-- Fewer than `length` payload bytes remain (rules R85 step 3, R94). -/
  | truncatedInput
  /-- Fewer than four bytes remain for the crc field (rules R85 step 4, R94). -/
  | missingChecksum
  /-- The block's verdict was not PASS (rules R85 step 6, R93). -/
  | checksumMismatch
  deriving DecidableEq, Repr

/-- Steps 1 to 5 of verifying: length, type, payload, stored crc, and the bytes after the chunk;
the errors in the order of rule R96 (rule R85). -/
def sliceChunk (bs : List Byte) : Except ChunkError (RawChunk × List Byte) :=
  match bs with
  | l0 :: l1 :: l2 :: l3 :: t0 :: t1 :: t2 :: t3 :: r =>
    let n := (fromBe32 l0 l1 l2 l3).toNat
    if r.length < n then .error .truncatedInput
    else match r.drop n with
      | c0 :: c1 :: c2 :: c3 :: rest =>
        .ok ({ chunk := { ctype := { t0 := t0, t1 := t1, t2 := t2, t3 := t3 },
                          payload := r.take n },
               c0 := c0, c1 := c1, c2 := c2, c3 := c3 }, rest)
      | _ => .error .missingChecksum
  | _ => .error .shortHeader

end Sys2Proof.Machine
end

