-- ==== Sys2Proof/Machine/Run.lean ====
section
/-! DEFINITION. Runs: a list of commands (rule R56), a list of `(rst, cmd)` pairs (rules R12, R118),
and the equivalence of command lists (rule R56). -/

namespace Sys2Proof.Machine

/-- `run(s, cs)` of rule R56: the commands in order, stopping at a fault or refusal. -/
def run : List Instr → State → Host.Outcome State Fault Refusal
  | [], s => .next s
  | c :: cs, s =>
    match exec c s with
    | .next t => run cs t
    | .fault f => .fault f
    | .refused r => .refused r

/-- The fold of the step function over a list of `(rst, cmd)` pairs (rule R12). -/
def runSamples : List Sample → State → Host.Outcome State Fault Refusal
  | [], s => .next s
  | p :: ps, s =>
    match clock p s with
    | .next t => runSamples ps t
    | .fault f => .fault f
    | .refused r => .refused r

/-- The state is defined: a reset or INIT has happened (rules R25, R105). -/
def State.isDefined (s : State) : Bool :=
  match s.block with
  | .powerOn => false
  | .defined _ => true

/-- Two command lists are equivalent: the same run from every defined state (rule R56). -/
def Equivalent (cs ds : List Instr) : Prop :=
  ∀ s : State, s.isDefined = true → run cs s = run ds s

end Sys2Proof.Machine
end

