-- ==== Sys2Proof/Machine/Assembler.lean ====
section
/-! DEFINITION. The notation for command lists: lines, the pseudo-commands with their expansions,
and the reading of a written line (rules R52, R53). Notation only: it adds no behaviour. -/

namespace Sys2Proof.Machine

/-- `MSG`: one UPD8 per byte, in order (rule R53). -/
def feed (m : List Byte) : List Instr := m.map Instr.upd8

/-- `CHKBE`: CHK of the four bytes read big-endian (rules R33, R53). -/
def chkBe (c0 c1 c2 c3 : Byte) : List Instr := [.chk (fromBe32 c0 c1 c2 c3)]

/-- `CRC32`: INIT, then the message (rule R53). -/
def crcCmds (m : List Byte) : List Instr := .init :: feed m

/-- `CHUNKGEN`: INIT, the type bytes, the payload bytes (rules R53, R106). -/
def generateCmds (c : Chunk) : List Instr := .init :: (feed c.ctype.bytes ++ feed c.payload)

/-- `CHUNKCHK`: CHUNKGEN, then CHKBE of the stored bytes (rules R53, R107). -/
def verifyCmds (r : RawChunk) : List Instr :=
  generateCmds r.chunk ++ chkBe r.c0 r.c1 r.c2 r.c3

/-- A line of a command list (rules R52, R53). -/
inductive Line where
  | cmd (i : Instr)
  | reset
  | msg (m : List Byte)
  | chkbe (c0 c1 c2 c3 : Byte)
  | crc32 (m : List Byte)
  | chunkgen (c : Chunk)
  | chunkchk (r : RawChunk)
  deriving DecidableEq, Repr

/-- A step with `rst = 1`; the word at that step is ignored, and the model shows the all-zero one
(rules R52, R104; DESIGN CHOICE, log entry 4). -/
def resetSample : Sample := { rst := true, cmd := 0 }

/-- The samples a line stands for (rules R52, R53). -/
def Line.samples : Line → List Sample
  | .cmd i => [sampleOf i]
  | .reset => [resetSample]
  | .msg m => (feed m).map sampleOf
  | .chkbe c0 c1 c2 c3 => (chkBe c0 c1 c2 c3).map sampleOf
  | .crc32 m => (crcCmds m).map sampleOf
  | .chunkgen c => (generateCmds c).map sampleOf
  | .chunkchk r => (verifyCmds r).map sampleOf

/-- What a written line is made of. -/
inductive Token where
  | word (cs : List Char)
  | num (n : Nat)
  | chr (b : Byte)
  | str (bs : List Byte)
  | comma
  deriving DecidableEq, Repr

/-- The ASCII code of a character, if it has one (rule R52). -/
def asciiByte (c : Char) : Option Byte :=
  if isAsciiChar c then some (BitVec.ofNat 8 c.toNat) else none

/-- The value of a digit, capital or small letters above 9. -/
def digitValue (c : Char) : Option Nat :=
  let n := c.toNat
  if 48 ≤ n && n ≤ 57 then some (n - 48)
  else if 65 ≤ n && n ≤ 70 then some (n - 55)
  else if 97 ≤ n && n ≤ 102 then some (n - 87)
  else none

/-- The value of a run of digits in a base, after `acc`. -/
def digitsValue (base : Nat) : Nat → List Char → Option Nat
  | acc, [] => some acc
  | acc, c :: cs =>
    match digitValue c with
    | some v => if v < base then digitsValue base (base * acc + v) cs else none
    | none => none

/-- A number "in `0x` hexadecimal or decimal" (rule R52). -/
def readNumber : List Char → Option Nat
  | '0' :: 'x' :: c :: cs => digitsValue 16 0 (c :: cs)
  | '0' :: 'x' :: [] => none
  | cs => digitsValue 10 0 cs

/-- A finished word, given reversed: a number when its first character is a decimal digit, else a
name. -/
def finishWord (rev : List Char) : Option Token :=
  match rev.reverse with
  | [] => none
  | c :: cs => if c.isDigit then (readNumber (c :: cs)).map .num else some (.word (c :: cs))

/-- Where in a line the reader stands. -/
inductive LexState where
  | between
  | inWord (rev : List Char)
  | inText (rev : List Byte)
  | afterQuote
  | quoted (b : Byte)
  deriving DecidableEq, Repr

/-- Blank space between the parts of a line (log entry 4). -/
def isBlank (c : Char) : Bool := c == ' ' || c == '\t'

/-- The parts of a line; `;` "starts a comment to end of line" (rule R52). DESIGN CHOICE (log
entry 4): inside single or double quotes `;` is the character and starts no comment; a quoted
character or text holds ASCII characters and no escape; a closing quote ends its operand, so the next
one may follow with no blank between (`'a''b'` and `'R'0x52` are two bytes each); a quote within a word
is refused. -/
def lex : LexState → List Char → Option (List Token)
  | .between, [] => some []
  | .between, c :: cs =>
    if c == ';' then some []
    else if isBlank c then lex .between cs
    else if c == ',' then (lex .between cs).map (.comma :: ·)
    else if c == '\'' then lex .afterQuote cs
    else if c == '"' then lex (.inText []) cs
    else lex (.inWord [c]) cs
  | .inWord rev, [] => (finishWord rev).map ([·])
  | .inWord rev, c :: cs =>
    if c == ';' then (finishWord rev).map ([·])
    else if isBlank c then
      match finishWord rev with
      | some t => (lex .between cs).map (t :: ·)
      | none => none
    else if c == ',' then
      match finishWord rev with
      | some t => (lex .between cs).map (t :: .comma :: ·)
      | none => none
    else if c == '\'' || c == '"' then none
    else lex (.inWord (c :: rev)) cs
  | .inText _, [] => none
  | .inText rev, c :: cs =>
    if c == '"' then (lex .between cs).map (.str rev.reverse :: ·)
    else match asciiByte c with
      | some b => lex (.inText (b :: rev)) cs
      | none => none
  | .afterQuote, [] => none
  | .afterQuote, c :: cs =>
    match asciiByte c with
    | some b => lex (.quoted b) cs
    | none => none
  | .quoted _, [] => none
  | .quoted b, c :: cs => if c == '\'' then (lex .between cs).map (.chr b :: ·) else none

/-- A byte operand: "a number 0 to 255" or a quoted character (rule R52). DESIGN CHOICE (log
entry 4): the bytes of CHKBE and of every other pseudo-command are written the same way, so a bare
hexadecimal byte as in `CHKBE AE 42 60 82` (`95_test_vectors.md` P3) is refused or read as
decimal. -/
def readByte : Token → Option Byte
  | .num n => if isByteNumber n then some (BitVec.ofNat 8 n) else none
  | .chr b => some b
  | _ => none

/-- The operand of CHK: "a number 0 to 4294967295" (rule R52). -/
def readWord : Token → Option Word
  | .num n => if isWordNumber n then some (BitVec.ofNat 32 n) else none
  | _ => none

/-- Byte operands one by one. -/
def readByteList : List Token → Option (List Byte)
  | [] => some []
  | t :: ts =>
    match readByte t, readByteList ts with
    | some b, some bs => some (b :: bs)
    | _, _ => none

/-- Message bytes: a text, or bytes, possibly none (rule R53). -/
def readBytes : List Token → Option (List Byte)
  | [.str bs] => some bs
  | ts => readByteList ts

/-- The parts of an operand list between commas. -/
def splitCommas : List Token → List (List Token)
  | [] => [[]]
  | .comma :: ts => [] :: splitCommas ts
  | t :: ts =>
    match splitCommas ts with
    | [] => [[t]]
    | g :: gs => (t :: g) :: gs

/-- Four type bytes and a payload (rule R53). -/
def readChunk (ty payload : List Token) : Option Chunk :=
  match readByteList ty, readBytes payload with
  | some [t0, t1, t2, t3], some p =>
    some { ctype := { t0 := t0, t1 := t1, t2 := t2, t3 := t3 }, payload := p }
  | _, _ => none

/-- The operands of a named command (rules R52, R53). -/
def readCommand (name : List Char) (ops : List Token) : Option Line :=
  if name = ['N', 'O', 'P'] then
    match ops with
    | [] => some (.cmd .nop)
    | _ => none
  else if name = ['I', 'N', 'I', 'T'] then
    match ops with
    | [] => some (.cmd .init)
    | _ => none
  else if name = ['U', 'P', 'D', '8'] then
    match ops with
    | [t] => (readByte t).map fun b => .cmd (.upd8 b)
    | _ => none
  else if name = ['C', 'H', 'K'] then
    match ops with
    | [t] => (readWord t).map fun e => .cmd (.chk e)
    | _ => none
  else if name = ['R', 'E', 'S', 'E', 'T'] then
    match ops with
    | [] => some .reset
    | _ => none
  else if name = ['M', 'S', 'G'] then (readBytes ops).map .msg
  else if name = ['C', 'H', 'K', 'B', 'E'] then
    match readByteList ops with
    | some [c0, c1, c2, c3] => some (.chkbe c0 c1 c2 c3)
    | _ => none
  else if name = ['C', 'R', 'C', '3', '2'] then (readBytes ops).map .crc32
  else if name = ['C', 'H', 'U', 'N', 'K', 'G', 'E', 'N'] then
    match splitCommas ops with
    | [ty, payload] => (readChunk ty payload).map .chunkgen
    | _ => none
  else if name = ['C', 'H', 'U', 'N', 'K', 'C', 'H', 'K'] then
    match splitCommas ops with
    | [ty, payload, crc] =>
      match readChunk ty payload, readByteList crc with
      | some c, some [c0, c1, c2, c3] =>
        some (.chunkchk { chunk := c, c0 := c0, c1 := c1, c2 := c2, c3 := c3 })
      | _, _ => none
    | _ => none
  else none

/-- A written line: no line at all when it is blank or a comment; `none` when it is not in the
notation (rule R52). -/
def readLine (cs : List Char) : Option (List Line) :=
  match lex .between cs with
  | some [] => some []
  | some (.word name :: ops) => (readCommand name ops).map ([·])
  | _ => none

/-- The samples of a written command list, one command per line (rule R52). -/
def assemble : List (List Char) → Option (List Sample)
  | [] => some []
  | l :: ls =>
    match readLine l, assemble ls with
    | some xs, some ps => some (xs.flatMap Line.samples ++ ps)
    | _, _ => none

end Sys2Proof.Machine
end

