-- ==== Sys2Proof/Machine/Protocol.lean ====
section
/-! DEFINITION. The procedures by which the host uses the block: generating a chunk's crc field
(rules R81, R106) and verifying a chunk (rules R85, R86, R107). They drive the machine through
commands and read nothing but its outputs. -/

namespace Sys2Proof.Machine

/-- Generating: the command list of rule R106, then the chunk's bytes with the `crc_out` read
after it; `none` if the block stopped. -/
def generate (c : Chunk) (s : State) : Option (List Byte × State) :=
  match run (generateCmds c) s with
  | .next t => t.crcOut.map fun v => (c.wire v, t)
  | .fault _ => none
  | .refused _ => none

/-- Verifying a cut-out chunk: the command list of rule R107, then the verdict read from the
flags; `none` if the block stopped. -/
def verifyRaw (r : RawChunk) (s : State) : Option (Verdict × State) :=
  match run (verifyCmds r) s with
  | .next t => t.verdict.map fun v => (v, t)
  | .fault _ => none
  | .refused _ => none

/-- How verifying the chunk at the head of an input ends. -/
inductive DecodeResult where
  /-- Step 7: the chunk, its length and its verified checksum, and the bytes after it. -/
  | accepted (length : Word) (chunk : Chunk) (crc : Word) (rest : List Byte) (s : State)
  /-- An error; no chunk is built. -/
  | failed (e : ChunkError) (s : State)
  /-- The block stopped with a fault or refusal; the statements show it never does. -/
  | blockStopped
  deriving DecidableEq, Repr

/-- Verifying the chunk at the head of an input (rule R85): only the verdict PASS accepts
(rules R26, R86). When slicing fails the host issues no CHK; here it issues no command at all
(DESIGN CHOICE, log entry 5). -/
def decodeChunk (bs : List Byte) (s : State) : DecodeResult :=
  match sliceChunk bs with
  | .error e => .failed e s
  | .ok (r, rest) =>
    match verifyRaw r s with
    | some (.pass, t) => .accepted r.chunk.length r.chunk r.stored rest t
    | some (_, t) => .failed .checksumMismatch t
    | none => .blockStopped

/-- Verifying the chunks of a file in file order: each begins with INIT, and the host stops at the
first that fails (rule R107). The answer is the number of chunks that passed before the first
failing one, or `none` when all passed. -/
def verifyAll : List RawChunk → State → Option (Option Nat × State)
  | [], s => some (none, s)
  | r :: rs, s =>
    match verifyRaw r s with
    | some (.pass, t) =>
      match verifyAll rs t with
      | some (k, u) => some (k.map (· + 1), u)
      | none => none
    | some (_, t) => some (some 0, t)
    | none => none

end Sys2Proof.Machine
end

