-- ==== Sys2Proof/Safety.lean ====
section
/-! DEFINITION. What counts as a safe state and an honest report, in the terms the statements use:
the flag invariant (rule R27), acceptance (rules R26, R86), and what a list of commands has fed and
checked (rules R15, R16, R80). -/

namespace Sys2Proof.Machine

/-- `MM = 1` implies `CK = 1` (rule R27). -/
def Regs.flagsAgree (r : Regs) : Bool := !r.mm || r.ck

/-- The invariant of rule R27; the power-on state has no flags to disagree. -/
def State.flagsAgree (s : State) : Bool :=
  match s.block with
  | .powerOn => true
  | .defined r => r.flagsAgree

/-- The host accepts only on `ck_out = 1` and `mm_out = 0` (rules R26, R107). -/
def State.accepts (s : State) : Bool := s.ckOut == some true && s.mmOut == some false

/-- A sample that starts a new message: a reset, or the command INIT (rules R24, R60). -/
def Sample.restarts (p : Sample) : Bool := p.rst || opField p.cmd == 1

/-- The bytes a list of commands feeds, in order (rule R80). -/
def bytesOf : List Instr → List Byte
  | [] => []
  | .nop :: cs => bytesOf cs
  | .init :: cs => bytesOf cs
  | .upd8 d :: cs => d :: bytesOf cs
  | .chk _ :: cs => bytesOf cs

/-- A CHK is among the commands (rule R16). -/
def SomeCheck (cs : List Instr) : Prop := ∃ e, Instr.chk e ∈ cs

/-- A CHK among the commands that follow a start found its operand different from the CRC of the
bytes fed before it (rules R15, R80). -/
def SomeMismatch (cs : List Instr) : Prop :=
  ∃ pre e post, cs = pre ++ Instr.chk e :: post ∧ crc32 (bytesOf pre) ≠ e

/-- The commands a list of samples presents. -/
def commandsOf (ps : List Sample) : List Instr := ps.map fun p => decode p.cmd

end Sys2Proof.Machine
end

