-- ==== Sys2Proof/Certificates/Slice0/Obligations.lean ====
section
/-! DEFINITION. The statements about the model, each named for what it states; the docstring cites
the rule of spec/ it follows. -/

open Sys2Proof Sys2Proof.Machine Host

/-- The 46 message bytes of the document's worked example: the type, then the payload
(`95_test_vectors.md` V1). -/
def Sys2Proof.Machine.workedChunk : Chunk :=
  { ctype := { t0 := 0x52, t1 := 0x75, t2 := 0x53, t3 := 0x74 }
    payload := [0x54, 0x68, 0x69, 0x73, 0x20, 0x69, 0x73, 0x20, 0x77, 0x68, 0x65, 0x72, 0x65, 0x20,
      0x79, 0x6F, 0x75, 0x72, 0x20, 0x73, 0x65, 0x63, 0x72, 0x65, 0x74, 0x20, 0x6D, 0x65, 0x73, 0x73,
      0x61, 0x67, 0x65, 0x20, 0x77, 0x69, 0x6C, 0x6C, 0x20, 0x62, 0x65, 0x21] }

/-! ## The command word -/

/-- Rule R50: the decoder, on every word; decoding a canonical encoding gives the command back, and
encoding a decoded word gives the word back exactly when the word is canonical. -/
def Obligations.DecodeEncodeAgree : Prop :=
  (∀ w : CmdWord,
    (w.extractLsb' 32 2 = 0#2 → decode w = .nop) ∧
    (w.extractLsb' 32 2 = 1#2 → decode w = .init) ∧
    (w.extractLsb' 32 2 = 2#2 → decode w = .upd8 (w.extractLsb' 0 8)) ∧
    (w.extractLsb' 32 2 = 3#2 → decode w = .chk (w.extractLsb' 0 32))) ∧
  (∀ i : Instr, decode (encode i) = i) ∧
  (∀ w : CmdWord, encode (decode w) = w ↔ isCanonical w = true)

/-- Rule R46: the canonical words as numbers, with the rule's two examples. -/
def Obligations.CanonicalWordsAsListed : Prop :=
  encode .nop = 0x000000000 ∧ encode .init = 0x100000000 ∧
  (∀ d : Byte, encode (.upd8 d) = 0x200000000 + d.setWidth 34) ∧
  (∀ e : Word, encode (.chk e) = 0x300000000 + e.setWidth 34) ∧
  encode (.upd8 0x52) = 0x200000052 ∧ encode (.chk 0xABD1D84E) = 0x3ABD1D84E

/-- Rule R49: a step depends on no ignored bit; CHK ignores none of its argument; the canonical
value of the ignored bits is 0. -/
def Obligations.IgnoredBitsHaveNoEffect : Prop :=
  (∀ (w v : CmdWord) (rst : Bool) (s : State), opField w = opField v →
    (opField w = 2 → byteField w = byteField v) → (opField w = 3 → argField w = argField v) →
    decode w = decode v ∧ clock ⟨rst, w⟩ s = clock ⟨rst, v⟩ s) ∧
  (∀ e f : Word, e ≠ f → ∃ s, clock ⟨false, encode (.chk e)⟩ s ≠ clock ⟨false, encode (.chk f)⟩ s) ∧
  (∀ i : Instr, isCanonical (encode i) = true)

/-- The match and mask form of the opcode map (`30_encoding.md` section 2): under the mask
`0x300000000` each word is selected by exactly the row it decodes to; the all-zero word is NOP. -/
def Obligations.MaskSelectsDecodedRow : Prop :=
  (∀ w : CmdWord,
    (w &&& 0x300000000 = 0x000000000 ↔ decode w = .nop) ∧
    (w &&& 0x300000000 = 0x100000000 ↔ decode w = .init) ∧
    (w &&& 0x300000000 = 0x200000000 ↔ ∃ d, decode w = .upd8 d) ∧
    (w &&& 0x300000000 = 0x300000000 ↔ ∃ e, decode w = .chk e) ∧
    w &&& 0x300000000 = matchWord (decode w)) ∧
  decode 0 = .nop

/-- The sample words of `95_test_vectors.md` section 2.6 decode as listed there (a sanity
statement). -/
def Obligations.ListedWordsDecode : Prop :=
  decode 0x000000000 = .nop ∧ decode 0x0FFFFFFFF = .nop ∧ decode 0x100000000 = .init ∧
  decode 0x100000001 = .init ∧ decode 0x200000000 = .upd8 0x00 ∧ decode 0x2000000FF = .upd8 0xFF ∧
  decode 0x200000100 = .upd8 0x00 ∧ decode 0x2FFFFFF52 = .upd8 0x52 ∧
  decode 0x300000000 = .chk 0x00000000 ∧ decode 0x3FFFFFFFF = .chk 0xFFFFFFFF ∧
  decode 0x3ABD1D84E = .chk 0xABD1D84E

/-- A number is read as a command exactly when it fits the 34 bits of a command word, and a machine
with it presented runs the command it decodes to (`30_encoding.md` section 1; how a number reaches
the port is the model's, log entries 1 and 6). -/
def Obligations.PresentedNumberRuns : Prop :=
  ∀ (s : State) (nbits w : Nat), w < 2 ^ nbits →
    (w < 2 ^ 34 → decodeTableWord nbits w = some (decode (BitVec.ofNat 34 w)) ∧
      step (s.withFetchWord nbits w) = exec (decode (BitVec.ofNat 34 w)) s) ∧
    (2 ^ 34 ≤ w → decodeTableWord nbits w = none ∧
      step (s.withFetchWord nbits w) = .refused .endOfRun)

/-! ## The step and the run -/

/-- A step takes the oldest waiting sample; with `rst = 0` it is exactly `exec` of the decoded
command on the state that waits for the next sample (rules R12, R22, in the model's terms: log
entry 1). -/
def Obligations.StepRunsDecodedCommand : Prop :=
  ∀ (s : State) (w : CmdWord) (rest : List Sample), s.inputs = ⟨false, w⟩ :: rest →
    step s = exec (decode w) { s with inputs := rest }

/-- When no sample waits the step is refused as the end of the run, and a step is refused in no
other case (rule R118, in the model's terms: log entries 1 and 2). -/
def Obligations.StepRefusedOnlyAtEndOfRun : Prop :=
  ∀ (s : State) (r : Refusal), step s = .refused r ↔ s.inputs = [] ∧ r = .endOfRun

/-- Rule R22: the whole step function on a defined state, every case of `rst` and `op`. -/
def Obligations.StepFunctionCases : Prop :=
  ∀ (r : Regs) (ps : List Sample) (rst : Bool) (cmd : CmdWord),
    clock ⟨rst, cmd⟩ ⟨.defined r, ps⟩ = .next ⟨.defined (
      if rst = true then ⟨0xFFFFFFFF, false, false⟩
      else if cmd.extractLsb' 32 2 = 0 then r
      else if cmd.extractLsb' 32 2 = 1 then ⟨0xFFFFFFFF, false, false⟩
      else if cmd.extractLsb' 32 2 = 2 then
        ⟨step1N 8 (r.acc ^^^ (cmd.extractLsb' 0 8).zeroExtend 32), r.mm, r.ck⟩
      else ⟨r.acc, r.mm || (r.acc ^^^ 0xFFFFFFFF != cmd.extractLsb' 0 32), true⟩), ps⟩

/-- Rule R104: a step with `rst = 1` loads the start values whatever the state and the word on
`cmd`; at a step with `rst = 0` reset has no effect; INIT has the same effect. The last clause says it
of `step`, which takes the oldest waiting sample: that samples wait in a list of the state is the
model's choice (log entry 1). -/
def Obligations.ResetOverridesCommand : Prop :=
  ∀ (s : State) (w : CmdWord),
    clock ⟨true, w⟩ s = .next { s with block := .defined ⟨0xFFFFFFFF, false, false⟩ } ∧
    clock ⟨false, w⟩ s = exec (decode w) s ∧
    exec .init s = clock ⟨true, w⟩ s ∧
    (∀ rest, s.inputs = ⟨true, w⟩ :: rest →
      step s = .next ⟨.defined ⟨0xFFFFFFFF, false, false⟩, rest⟩)

/-- Rule R24: the state and the outputs after a reset step, and the state after INIT; the state
called reset is that state. -/
def Obligations.ResetValues : Prop :=
  (∀ (s : State) (w : CmdWord), ∃ t, clock ⟨true, w⟩ s = .next t ∧
    t.block = .defined ⟨0xFFFFFFFF, false, false⟩ ∧ t.crcOut = some 0x00000000 ∧
    t.mmOut = some false ∧ t.ckOut = some false ∧ exec .init s = .next t) ∧
  State.reset.block = .defined ⟨0xFFFFFFFF, false, false⟩

/-- A run of `k` samples takes exactly `k` steps and is the fold of the step function over them
(rules R12, R118, R119): the host's `run` on the waiting samples agrees with that fold. That the
samples wait in a list of the state is the model's choice (log entry 1). -/
def Obligations.RunIsFoldOverSamples : Prop :=
  ∀ (ps rest : List Sample) (s : State),
    match Core.run Sys2Proof.core ps.length { s with inputs := ps ++ rest } with
    | .next t => runSamples ps { s with inputs := rest } = .next t
    | .fault f => runSamples ps { s with inputs := rest } = .fault f
    | .refused r => runSamples ps { s with inputs := rest } = .refused r

/-- Rule R56: `exec` is the step on the encoded command with `rst = 0`; running a command list is
running its encoded samples; the observation is `(ACC ^ 0xFFFFFFFF, MM, CK)` and is injective on
the defined states of the block. -/
def Obligations.RunAndObservation : Prop :=
  (∀ (i : Instr) (s : State), exec i s = clock ⟨false, encode i⟩ s) ∧
  (∀ s : State, run [] s = .next s) ∧
  (∀ (c : Instr) (cs : List Instr) (s t : State), exec c s = .next t → run (c :: cs) s = run cs t) ∧
  (∀ (cs : List Instr) (s : State), runSamples (cs.map fun c => ⟨false, encode c⟩) s = run cs s) ∧
  (∀ (r : Regs) (ps : List Sample),
    State.obs ⟨.defined r, ps⟩ = some ⟨r.acc ^^^ 0xFFFFFFFF, r.mm, r.ck⟩) ∧
  (∀ (q r : Regs) (ps : List Sample),
    State.obs ⟨.defined q, ps⟩ = State.obs ⟨.defined r, ps⟩ ↔ q = r) ∧
  (∀ cs ds : List Instr, Equivalent cs ds ↔
    ∀ (r : Regs) (ps : List Sample), run cs ⟨.defined r, ps⟩ = run ds ⟨.defined r, ps⟩)

/-! ## The commands -/

/-- Rule R59: NOP completes from every state and changes nothing, the power-on state included;
every word with `op = 0` is NOP; a NOP between two UPD8 commands does not change the result. -/
def Obligations.NopChangesNothing : Prop :=
  (∀ s : State, exec .nop s = .next s) ∧
  (∀ (w : CmdWord) (s : State), opField w = 0 → clock ⟨false, w⟩ s = .next s) ∧
  encode .nop = 0x000000000 ∧
  (∀ (a b : Byte) (s : State), run [.upd8 a, .nop, .upd8 b] s = run [.upd8 a, .upd8 b] s) ∧
  State.crcOut ⟨.defined ⟨0x2B7BF6C3, false, false⟩, []⟩ = some 0xD484093C

/-- Rule R60: INIT completes from every state, the power-on state included, with the start values,
and `crc_out` is then 0, the CRC of the empty message; the bytes absorbed before it are gone. -/
def Obligations.InitStartsMessage : Prop :=
  (∀ s : State, exec .init s =
    .next { s with block := .defined { acc := 0xFFFFFFFF, mm := false, ck := false } }) ∧
  (∀ (w : CmdWord) (s : State), opField w = 1 → clock ⟨false, w⟩ s = exec .init s) ∧
  encode .init = 0x100000000 ∧
  (∀ s t : State, exec .init s = .next t → t.crcOut = some 0x00000000) ∧
  crc32 [] = 0x00000000 ∧
  (∀ s t : State, s.inputs = t.inputs → exec .init s = exec .init t)

/-- Rule R71: UPD8 completes from every defined state with the byte absorbed and the flags kept,
in either form of the byte update; its encoding, its corner cases and its example. -/
def Obligations.Upd8AbsorbsByte : Prop :=
  (∀ (s : State) (r : Regs) (d : Byte), s.block = .defined r →
    exec (.upd8 d) s = .next { s with block := .defined { r with acc := step8Bitwise r.acc d } } ∧
    exec (.upd8 d) s = .next { s with block := .defined { r with acc := step8Lut r.acc d } }) ∧
  (∀ d : Byte, encode (.upd8 d) = 0x200000000 + d.setWidth 34) ∧
  (∀ w : CmdWord, opField w = 2 → decode w = .upd8 (w.extractLsb' 0 8)) ∧
  (∀ a : Word, step8Bitwise a (a.extractLsb' 0 8) = a >>> 8) ∧
  step8Bitwise 0 0 = 0 ∧
  (∀ d : Byte, step8Bitwise 0 d = lut d) ∧
  (∀ (a : Word) (d e : Byte),
    step8Bitwise (a ^^^ e.zeroExtend 32) (d ^^^ e) = step8Bitwise a d) ∧
  (∃ (s : State) (d : Byte), run [.upd8 d, .upd8 d] s ≠ run [.upd8 d] s ∧ s.isDefined = true) ∧
  (∀ (s : State) (d : Byte), s.block = .powerOn → exec (.upd8 d) s = .fault .powerOnRead) ∧
  (List.range 9).map (fun k => step1N k (0xFFFFFFFF ^^^ (0x52 : Byte).zeroExtend 32)) =
    [0xFFFFFFAD, 0x92477CF6, 0x4923BE7B, 0xC9295C1D, 0x892C2D2E, 0x44961697, 0xCFF3886B,
      0x8A414715, 0xA89820AA] ∧
  lutIndex 0xFFFFFFFF 0x52 = 0xAD ∧ lut 0xAD = 0xA867DF55 ∧ finalize 0xA89820AA = 0x5767DF55

/-- Rule R83: CHK completes from every defined state; a difference in any bit from `crc_out` sets
`MM`, equality keeps it, `CK` becomes 1 and `ACC` stays; from the power-on state it faults. -/
def Obligations.ChkComparesAllBits : Prop :=
  (∀ (s : State) (r : Regs) (e : Word), s.block = .defined r →
    exec (.chk e) s = .next { s with
      block := .defined ⟨r.acc, r.mm || (r.acc ^^^ 0xFFFFFFFF != e), true⟩ }) ∧
  (∀ e : Word, encode (.chk e) = 0x300000000 + e.setWidth 34) ∧
  (∀ w : CmdWord, opField w = 3 → decode w = .chk (w.extractLsb' 0 32)) ∧
  (∀ (s : State) (r : Regs), s.block = .defined r →
    exec (.chk (r.acc ^^^ 0xFFFFFFFF)) s = .next { s with block := .defined { r with ck := true } }) ∧
  (∀ (s : State) (r : Regs) (e : Word) (j : Nat), s.block = .defined r → j < 32 →
    e.getLsbD j ≠ (r.acc ^^^ 0xFFFFFFFF).getLsbD j →
    exec (.chk e) s = .next { s with block := .defined { r with mm := true, ck := true } }) ∧
  (∀ (s : State) (e : Word), s.block = .powerOn → exec (.chk e) s = .fault .powerOnRead) ∧
  (∀ (s : State) (e : Word), run [.init, .chk e] s =
    .next { s with block := .defined ⟨0xFFFFFFFF, e != 0x00000000, true⟩ }) ∧
  exec (.chk 2882656334) ⟨.defined ⟨0x542E27B1, false, false⟩, []⟩ =
    .next ⟨.defined ⟨0x542E27B1, false, true⟩, []⟩ ∧
  exec (.chk 2882656333) ⟨.defined ⟨0x542E27B1, false, false⟩, []⟩ =
    .next ⟨.defined ⟨0x542E27B1, true, true⟩, []⟩

/-- Rule R25: from the power-on state NOP keeps it, INIT and a step with `rst = 1` define it, UPD8
and CHK fault, and no output has a value. -/
def Obligations.PowerOnHasNoValues : Prop :=
  ∀ ps : List Sample,
    exec .nop ⟨.powerOn, ps⟩ = .next ⟨.powerOn, ps⟩ ∧
    exec .init ⟨.powerOn, ps⟩ = .next ⟨.defined ⟨0xFFFFFFFF, false, false⟩, ps⟩ ∧
    (∀ w, clock ⟨true, w⟩ ⟨.powerOn, ps⟩ = .next ⟨.defined ⟨0xFFFFFFFF, false, false⟩, ps⟩) ∧
    (∀ d, exec (.upd8 d) ⟨.powerOn, ps⟩ = .fault .powerOnRead) ∧
    (∀ e, exec (.chk e) ⟨.powerOn, ps⟩ = .fault .powerOnRead) ∧
    State.crcOut ⟨.powerOn, ps⟩ = none ∧ State.mmOut ⟨.powerOn, ps⟩ = none ∧
    State.ckOut ⟨.powerOn, ps⟩ = none

/-- No command is stuck in a defined state, and the only stops a command makes are those of UPD8
and CHK from the power-on state (rules R54, R92). -/
def Obligations.CommandsStopOnlyAtPowerOn : Prop :=
  (∀ (i : Instr) (s : State), s.isDefined = true →
    ∃ t, exec i s = .next t ∧ t.isDefined = true ∧ t.inputs = s.inputs) ∧
  (∀ (i : Instr) (s : State) (f : Fault), exec i s = .fault f ↔
    s.isDefined = false ∧ f = .powerOnRead ∧ ((∃ d, i = .upd8 d) ∨ ∃ e, i = .chk e)) ∧
  (∀ (i : Instr) (s : State) (r : Refusal), exec i s ≠ .refused r)

/-- The frame of the four commands, the "Written by" and "Left unchanged by" of rules R14 to R16:
the waiting samples never change; NOP changes nothing; UPD8 keeps both flags; CHK keeps `ACC` and
a set `MM`. -/
def Obligations.CommandFrames : Prop :=
  ∀ (i : Instr) (s t : State) (q r : Regs), exec i s = .next t → s.block = .defined q →
    t.block = .defined r →
    t.inputs = s.inputs ∧ (i = .nop → r = q) ∧
    (∀ d, i = .upd8 d → r.mm = q.mm ∧ r.ck = q.ck) ∧
    (∀ e, i = .chk e → r.acc = q.acc ∧ (q.mm = true → r.mm = true)) ∧
    (r.acc ≠ q.acc → i = .init ∨ ∃ d, i = .upd8 d) ∧
    (r.mm ≠ q.mm → i = .init ∨ ∃ e, i = .chk e) ∧
    (r.ck ≠ q.ck → i = .init ∨ ∃ e, i = .chk e)

/-- The flags never reach the accumulator (rules R15, R16: they are read by their outputs only): two
runs of the same samples that start with the same `ACC` end with the same `ACC`. -/
def Obligations.FlagsNeverReachAcc : Prop :=
  ∀ (ps : List Sample) (a : Word) (m k m' k' : Bool) (inp inp' : List Sample), ∃ a' f g f' g',
    runSamples ps ⟨.defined ⟨a, m, k⟩, inp⟩ = .next ⟨.defined ⟨a', f, g⟩, inp⟩ ∧
    runSamples ps ⟨.defined ⟨a, m', k'⟩, inp'⟩ = .next ⟨.defined ⟨a', f', g'⟩, inp'⟩

/-- No command and no reset loads `ACC` with a value of the host's choice (rule R62): after any
clocked sample it is unchanged, or 0xFFFFFFFF by a reset or INIT, or the old value advanced by the
byte of a UPD8; from the power-on state only a reset or INIT gives it a value, 0xFFFFFFFF. -/
def Obligations.NoSampleLoadsAcc : Prop :=
  (∀ (p : Sample) (s t : State) (q r : Regs), clock p s = .next t → s.block = .defined q →
    t.block = .defined r →
    r.acc = q.acc ∨ (p.restarts = true ∧ r.acc = 0xFFFFFFFF) ∨
      ∃ d, p.rst = false ∧ decode p.cmd = .upd8 d ∧ r.acc = step8Bitwise q.acc d) ∧
  (∀ (p : Sample) (s t : State) (r : Regs), clock p s = .next t → s.block = .powerOn →
    t.block = .defined r → p.restarts = true ∧ r.acc = 0xFFFFFFFF)

/-! ## The invariant and what the state reports -/

/-- Every step keeps the invariant of rule R27, from every state that has it, and keeps a defined
block defined. -/
def Obligations.StepKeepsFlagsAgree : Prop :=
  ∀ s t : State, s.flagsAgree = true → step s = .next t →
    t.flagsAgree = true ∧ (s.isDefined = true → t.isDefined = true)

/-- The invariant of rule R27 holds after reset and at power-on. -/
def Obligations.ResetFlagsAgree : Prop :=
  State.reset.flagsAgree = true ∧ State.reset.isDefined = true ∧ State.powerOn.flagsAgree = true

/-- Rule R27: from an INIT or a reset exactly the states in which `MM = 1` implies `CK = 1` are
reachable, with every value of `ACC`. -/
def Obligations.ReachableExactlyWhenFlagsAgree : Prop :=
  ∀ (s : State) (p : Sample) (r : Regs), p.restarts = true →
    ((∃ ps, runSamples (p :: ps) s = .next { s with block := .defined r }) ↔
      (r.mm = true → r.ck = true))

/-- What the state reports after the last start of a message (rules R15, R16, R80): whatever ran
before, `ACC` and `crc_out` are those of exactly the bytes fed since, `MM` says that some CHK since
found a difference from the CRC of the bytes fed before it, `CK` that some CHK ran. -/
def Obligations.StateReportsSinceStart : Prop :=
  ∀ (before after : List Sample) (p : Sample) (s : State), s.isDefined = true →
    p.restarts = true → (∀ q ∈ after, q.restarts = false) →
    ∃ r : Regs, runSamples (before ++ p :: after) s = .next { s with block := .defined r } ∧
      r.acc = absorb 0xFFFFFFFF (bytesOf (commandsOf after)) ∧
      r.acc ^^^ 0xFFFFFFFF = crc32 (bytesOf (commandsOf after)) ∧
      (r.mm = true ↔ SomeMismatch (commandsOf after)) ∧
      (r.ck = true ↔ SomeCheck (commandsOf after))

/-- Rule R26: the three verdicts, and that the host's acceptance is the verdict PASS. -/
def Obligations.VerdictOfFlags : Prop :=
  ∀ (r : Regs) (ps : List Sample),
    (r.ck = false → State.verdict ⟨.defined r, ps⟩ = some .notChecked) ∧
    (r.ck = true → r.mm = false → State.verdict ⟨.defined r, ps⟩ = some .pass) ∧
    (r.ck = true → r.mm = true → State.verdict ⟨.defined r, ps⟩ = some .fail) ∧
    (State.accepts ⟨.defined r, ps⟩ = true ↔ State.verdict ⟨.defined r, ps⟩ = some .pass)

/-- Rule R79: `crc_out` is the bitwise complement of `ACC`, bit by bit, in place; without the
complement the worked input gives another number. -/
def Obligations.OutputIsComplement : Prop :=
  (∀ (r : Regs) (ps : List Sample),
    State.crcOut ⟨.defined r, ps⟩ = some (r.acc ^^^ 0xFFFFFFFF)) ∧
  (∀ (a : Word) (j : Nat), j < 32 → (finalize a).getLsbD j = !a.getLsbD j) ∧
  absorb 0xFFFFFFFF workedChunk.message = 1412310961 ∧ crc32 workedChunk.message = 2882656334

/-- Rule R61, the laws of the control commands (a) to (e). -/
def Obligations.ControlLaws : Prop :=
  (∀ cs ds : List Instr, Equivalent (cs ++ .nop :: ds) (cs ++ ds)) ∧
  (∀ cs : List Instr, Equivalent (cs ++ [.init]) [.init]) ∧
  Equivalent [.init, .init] [.init] ∧
  (∀ (s : State) (w : CmdWord), exec .init s = clock ⟨true, w⟩ s) ∧
  (∀ (cs : List Instr) (s t : State), s.inputs = t.inputs →
    run (.init :: cs) s = run (.init :: cs) t)

/-- Rule R84, the laws of CHK (a) to (g). -/
def Obligations.ChkLaws : Prop :=
  (∀ (e : Word) (s t : State), exec (.chk e) s = .next t → t.crcOut = s.crcOut) ∧
  (∀ (cs : List Instr) (r : Regs) (ps : List Sample), Instr.init ∉ cs →
    ∃ q : Regs, run cs ⟨.defined r, ps⟩ = .next ⟨.defined q, ps⟩ ∧
      (r.mm = true → q.mm = true) ∧ (r.ck = true → q.ck = true)) ∧
  (∀ e : Word, Equivalent [.chk e, .chk e] [.chk e]) ∧
  (∀ e f : Word, Equivalent [.chk e, .chk f] [.chk f, .chk e]) ∧
  (∀ (m : List Byte) (e : Word) (s : State), ∃ t,
    run (.init :: (m.map .upd8 ++ [.chk e])) s = .next t ∧
    t.verdict = some (if e = crc32 m then .pass else .fail)) ∧
  (∀ (m : List Byte) (s : State), ∃! e : Word, ∃ t,
    run (.init :: (m.map .upd8 ++ [.chk e])) s = .next t ∧ t.verdict = some .pass)

/-! ## The arithmetic -/

/-- Rule R65: the two forms of the one-bit update and the rule's listed values. -/
def Obligations.BitUpdateForms : Prop :=
  (∀ a : Word, step1 a = if a.getLsbD 0 = true then (a >>> 1) ^^^ 0xEDB88320 else a >>> 1) ∧
  (∀ a : Word, step1 a = (a >>> 1) ^^^
    (0xEDB88320 &&& (if a.getLsbD 0 = true then BitVec.allOnes 32 else 0))) ∧
  step1 0x00000000 = 0x00000000 ∧ step1 0x00000001 = 0xEDB88320 ∧ step1 0x00000002 = 0x00000001 ∧
  step1 0x80000000 = 0x40000000 ∧ step1 0xFFFFFFFF = 0x92477CDF ∧ step1 0xFFFFFFFE = 0x7FFFFFFF ∧
  step1 0xEDB88320 = 0x76DC4190

/-- Rule R68: the update is linear, once and repeated, and on a value whose low `k` bits are 0 `k`
updates are a shift. -/
def Obligations.BitUpdateLinear : Prop :=
  (∀ u v : Word, step1 (u ^^^ v) = step1 u ^^^ step1 v) ∧
  (∀ (k : Nat) (u v : Word), step1N k (u ^^^ v) = step1N k u ^^^ step1N k v) ∧
  (∀ (k : Nat) (h : Word), k ≤ 32 → (∀ j, j < k → h.getLsbD j = false) → step1N k h = h >>> k)

/-- Rule R66: the byte update equals the bit-serial form that takes bits 0 to 7 of the byte in that
order. -/
def Obligations.BytesEnterLowBitFirst : Prop :=
  ∀ (a : Word) (d : Byte),
    step8Bitwise a d = step1N 8 (a ^^^ d.zeroExtend 32) ∧
    step8Bitwise a d = feedBits d [0, 1, 2, 3, 4, 5, 6, 7] a

/-- Rules R8 and R70: the LUT-driven form equals the bitwise form, so the build parameter changes
no next state of any command. -/
def Obligations.LutFormEqualsBitwise : Prop :=
  (∀ (a : Word) (d : Byte), step8Lut a d = step8Bitwise a d) ∧
  (∀ (x y : Config.Impl) (a : Word) (d : Byte), step8 x a d = step8 y a d) ∧
  (∀ (x : Config.Impl) (s : State) (d : Byte), exec (.upd8 d) s = onDefined s (absorbByte x d))

/-- Rule R89: the listed contents of the table are the values of its definition. -/
def Obligations.LutListingMatchesDefinition : Prop :=
  lutRom.length = 256 ∧ ∀ i : Byte, lutRom[i.toNat]? = some (lut i)

/-- Rule R90: the properties (a) to (g) of the table. -/
def Obligations.LutProperties : Prop :=
  lut 0x00 = 0x00000000 ∧ lut 0x80 = 0xEDB88320 ∧
  (∀ i j : Byte, lut (i ^^^ j) = lut i ^^^ lut j) ∧
  lut 0x01 = 0x77073096 ∧ lut 0x02 = 0xEE0E612C ∧ lut 0x04 = 0x076DC419 ∧ lut 0x08 = 0x0EDB8832 ∧
  lut 0x10 = 0x1DB71064 ∧ lut 0x20 = 0x3B6E20C8 ∧ lut 0x40 = 0x76DC4190 ∧ lut 0x03 = 0x990951BA ∧
  (∀ i j : Byte, lut i = lut j → i = j) ∧
  (∀ i j : Byte, (lut i).extractLsb' 24 8 = (lut j).extractLsb' 24 8 → i = j) ∧
  ((List.range 256).map fun n => lut (BitVec.ofNat 8 n)).foldr (· ^^^ ·) 0 = 0x00000000 ∧
  ((List.range 256).map fun n => (lut (BitVec.ofNat 8 n)).toNat).sum = 549755813760 ∧
  lut 0xFF = 0x2D02EF8D ∧ lut 0xAD = 0xA867DF55

/-- The one-bit update is invertible with the stated inverse (`41_update_op.md` section 6). -/
def Obligations.BitUpdateInvertible : Prop :=
  (∀ a : Word, step1Inv (step1 a) = a) ∧ (∀ b : Word, step1 (step1Inv b) = b) ∧
  (∀ b : Word, step1Inv b =
    if b.getLsbD 31 = true then ((b ^^^ 0xEDB88320) <<< 1) ||| 1 else b <<< 1)

/-- Absorbing a fixed byte and absorbing a fixed byte string are bijections of the register, so two
registers that differ stay different under a common suffix (`41_update_op.md` section 6). -/
def Obligations.AbsorbBijective : Prop :=
  (∀ (x : Config.Impl) (d : Byte), Function.Bijective fun a : Word => step8 x a d) ∧
  (∀ m : List Byte, Function.Bijective fun a : Word => absorb a m)

/-- Absorbing four bytes is 32 one-bit updates on the register with the four bytes placed on its
byte lanes, and from any register every 32-bit value is reached by exactly one four-byte string
(`41_update_op.md` section 6). -/
def Obligations.FourBytesReachEveryValue : Prop :=
  (∀ (a : Word) (b0 b1 b2 b3 : Byte),
    absorb a [b0, b1, b2, b3] = step1N 32 (a ^^^ (b3 ++ b2 ++ b1 ++ b0))) ∧
  (∀ a v : Word, ∃! m : List Byte, m.length = 4 ∧ absorb a m = v) ∧
  absorb 0xFFFFFFFF [0xFF, 0xFF, 0xFF, 0xFF] = 0x00000000

/-- Rule R76: absorbing in pieces is absorbing the whole, also on the machine with any number of
NOPs between the pieces. -/
def Obligations.StreamingInPieces : Prop :=
  (∀ (a : Word) (x y : List Byte), absorb (absorb a x) y = absorb a (x ++ y)) ∧
  (∀ (x y : List Byte) (n : Nat) (s : State),
    run (x.map .upd8 ++ List.replicate n .nop ++ y.map .upd8) s = run ((x ++ y).map .upd8) s)

/-- Rule R73: after INIT and the bytes of any message, with NOPs anywhere, the state is
(`absorb(0xFFFFFFFF, m)`, 0, 0) and `crc_out` is the CRC of the message; the document's worked
value. -/
def Obligations.WholeMessageCrc : Prop :=
  (∀ (s : State) (cs : List Instr), (∀ c ∈ cs, c = .nop ∨ ∃ d, c = .upd8 d) →
    ∃ t, run (.init :: cs) s = .next t ∧ t.inputs = s.inputs ∧
      t.block = .defined ⟨absorb 0xFFFFFFFF (bytesOf cs), false, false⟩ ∧
      t.crcOut = some (crc32 (bytesOf cs))) ∧
  (∀ m : List Byte, bytesOf (m.map .upd8) = m) ∧
  absorb 0xFFFFFFFF workedChunk.message = 0x542E27B1 ∧
  crc32 workedChunk.message = 0xABD1D84E ∧ (0xABD1D84E : Word) = 2882656334

/-- Rule R74: bit `j` of the register after a message is the coefficient of `x^(31-j)` in
`(I(x) x^L + M(x) x^32) mod G(x)`, and the CRC is its complement. -/
def Obligations.RegisterIsPolynomialRemainder : Prop :=
  ∀ m : List Byte,
    let x : Polynomial (ZMod 2) := Polynomial.X
    let G := x ^ 32 + x ^ 26 + x ^ 23 + x ^ 22 + x ^ 16 + x ^ 12 + x ^ 11 + x ^ 10 + x ^ 8 + x ^ 7 +
      x ^ 5 + x ^ 4 + x ^ 2 + x + 1
    let L := 8 * m.length
    let I := ∑ k ∈ Finset.range 32, x ^ k
    let M := ∑ i ∈ Finset.range L,
      if (m.getD (i / 8) 0).getLsbD (i % 8) = true then x ^ (L - 1 - i) else 0
    let R := Polynomial.modByMonic (I * x ^ L + M * x ^ 32) G
    G.Monic ∧ R.degree < 32 ∧
    ∀ j, j < 32 →
      ((absorb 0xFFFFFFFF m).getLsbD j = true ↔ R.coeff (31 - j) = 1) ∧
      ((crc32 m).getLsbD j = true ↔ R.coeff (31 - j) = 0)

/-- Rule R77: the corner values of whole messages. -/
def Obligations.CornerMessageValues : Prop :=
  crc32 [] = 0x00000000 ∧
  absorb 0xFFFFFFFF [0x00] = 0x2DFD1072 ∧ crc32 [0x00] = 0xD202EF8D ∧
  absorb 0xFFFFFFFF [0xFF] = 0x00FFFFFF ∧ crc32 [0xFF] = 0xFF000000 ∧
  crc32 [0x00, 0x00, 0x00, 0x00] = 0x2144DF1C ∧
  absorb 0xFFFFFFFF [0xFF, 0xFF, 0xFF, 0xFF] = 0x00000000 ∧
  crc32 [0xFF, 0xFF, 0xFF, 0xFF] = 0xFFFFFFFF ∧
  crc32 [0x49, 0x45, 0x4E, 0x44] = 0xAE426082 ∧
  crc32 [0x31, 0x32, 0x33, 0x34, 0x35, 0x36, 0x37, 0x38, 0x39] = 0xCBF43926

/-- The block's function is the CRC of the parameter set (32, `0x04C11DB7`, `0xFFFFFFFF`, true,
true, `0xFFFFFFFF`) computed the unreflected way, and `POLY_R` is that polynomial reversed
(`00_scope.md` section 1). -/
def Obligations.FunctionMatchesParameterSet : Prop :=
  Config.polyR = (0x04C11DB7 : Word).reverse ∧ Config.polyR = 0xEDB88320 ∧
  ∀ m : List Byte, Params.crc ⟨0x04C11DB7, 0xFFFFFFFF, true, true, 0xFFFFFFFF⟩ m = crc32 m

/-- The near variants give other values for the worked message (`95_test_vectors.md` section 4; a
sanity statement). The variants' parameter sets and the length bytes of POSIX `cksum` are presumed
(log entry 9). -/
def Obligations.NearVariantsDiffer : Prop :=
  jamCrc.crc workedChunk.message = 0x542E27B1 ∧ zeroInit.crc workedChunk.message = 0x57512F5A ∧
  zeroInitPlain.crc workedChunk.message = 0xA8AED0A5 ∧
  msbFirst.crc workedChunk.message = 0x960B0AAC ∧ bzip2.crc workedChunk.message = 0x3550D069 ∧
  mpeg2.crc workedChunk.message = 0xCAAF2F96 ∧ cksum.crc workedChunk.message = 0x1DBFD156 ∧
  posixCksum workedChunk.message = 0xD7575D02 ∧
  crc32 (be32 0x0000002A ++ workedChunk.message) = 0xDABABFF1 ∧
  crc32 workedChunk.payload = 0xFB8A42EC ∧
  isoHdlc.crc workedChunk.message = 0xABD1D84E

/-! ## Chunks and the host's procedures -/

/-- Rules R32 and R33: the big-endian layout of a 32-bit value, its reading, and that they are
inverse to each other. -/
def Obligations.BigEndianRoundTrip : Prop :=
  (∀ v : Word, be32 v =
    [v.extractLsb' 24 8, v.extractLsb' 16 8, v.extractLsb' 8 8, v.extractLsb' 0 8]) ∧
  (∀ c0 c1 c2 c3 : Byte,
    (fromBe32 c0 c1 c2 c3).extractLsb' 24 8 = c0 ∧ (fromBe32 c0 c1 c2 c3).extractLsb' 16 8 = c1 ∧
    (fromBe32 c0 c1 c2 c3).extractLsb' 8 8 = c2 ∧ (fromBe32 c0 c1 c2 c3).extractLsb' 0 8 = c3 ∧
    be32 (fromBe32 c0 c1 c2 c3) = [c0, c1, c2, c3]) ∧
  (∀ (v : Word) (c0 c1 c2 c3 : Byte), be32 v = [c0, c1, c2, c3] → fromBe32 c0 c1 c2 c3 = v) ∧
  be32 2882656334 = [0xAB, 0xD1, 0xD8, 0x4E]

/-- The layout of a chunk (`20_memory.md` section 4): `12 + L` bytes, the fields at their offsets,
and cutting the bytes of a chunk gives its parts and what follows it. -/
def Obligations.ChunkLayout : Prop :=
  ∀ (c : Chunk) (v : Word) (rest : List Byte), c.fits = true →
    (c.wire v).length = 12 + c.payload.length ∧
    (c.wire v).take 4 = be32 (BitVec.ofNat 32 c.payload.length) ∧
    ((c.wire v).drop 4).take (4 + c.payload.length) = c.message ∧
    (c.wire v).drop (8 + c.payload.length) = be32 v ∧
    ∃ r : RawChunk, sliceChunk (c.wire v ++ rest) = .ok (r, rest) ∧ r.chunk = c ∧ r.stored = v

/-- The slicing errors in the order of rule R96: with a length and a type read, too few payload
bytes give `truncatedInput`, and else too few crc bytes give `missingChecksum`; the host then
issues no command, and what the block holds stays (log entry 5). -/
def Obligations.SlicingErrors : Prop :=
  ∀ (c : ChunkType) (n : Word) (tail : List Byte) (s : State),
    (tail.length < n.toNat →
      decodeChunk (be32 n ++ c.bytes ++ tail) s = .failed .truncatedInput s) ∧
    (n.toNat ≤ tail.length → tail.length < n.toNat + 4 →
      decodeChunk (be32 n ++ c.bytes ++ tail) s = .failed .missingChecksum s)

/-- Generating from any state always succeeds, ends with both flags 0, and gives the chunk's bytes
with the CRC of its message; verifying those bytes from any state accepts the same chunk with the
same checksum (`42_result_and_check.md` sections 1 and 2). -/
def Obligations.GenerateThenVerify : Prop :=
  ∀ (c : Chunk) (s u : State) (rest : List Byte), c.fits = true →
    (∃ t, generate c s = some (c.wire (crc32 c.message), t) ∧
      t.ckOut = some false ∧ t.mmOut = some false) ∧
    ∃ t, decodeChunk (c.wire (crc32 c.message) ++ rest) u =
      .accepted c.length c (crc32 c.message) rest t ∧ t.accepts = true

/-- A changed crc field, and a change of exactly one message byte, is always reported FAIL
(`42_result_and_check.md` section 2). -/
def Obligations.SingleChangeDetected : Prop :=
  (∀ (r : RawChunk) (s : State), r.stored ≠ crc32 r.chunk.message →
    ∃ t, verifyRaw r s = some (.fail, t) ∧ t.accepts = false) ∧
  (∀ (r : RawChunk) (s : State) (before after : List Byte) (b b' : Byte), b ≠ b' →
    r.chunk.message = before ++ b' :: after → r.stored = crc32 (before ++ b :: after) →
    ∃ t, verifyRaw r s = some (.fail, t) ∧ t.accepts = false)

/-- Two messages of one length whose bits, taken in the order they enter the register, differ and
differ only within 32 consecutive positions have different CRCs (`42_result_and_check.md`
section 2, its general-knowledge sentence; `93_implementation_defined.md` G8). -/
def Obligations.BurstOf32BitsDetected : Prop :=
  ∀ (m n : List Byte) (k : Nat), m.length = n.length → m ≠ n →
    (∀ i, i < 8 * m.length → (i < k ∨ k + 32 ≤ i) →
      (m.getD (i / 8) 0).getLsbD (i % 8) = (n.getD (i / 8) 0).getLsbD (i % 8)) →
    crc32 m ≠ crc32 n

/-- An accepted chunk was checked (`42_result_and_check.md` section 2): the input is that chunk with
a correct crc field, and the block ends in PASS; the block never stops the procedure. -/
def Obligations.OnlyCheckedChunksAccepted : Prop :=
  (∀ (bs rest : List Byte) (s t : State) (l crc : Word) (c : Chunk),
    decodeChunk bs s = .accepted l c crc rest t →
    bs = c.wire crc ++ rest ∧ crc = crc32 c.message ∧ l = c.length ∧ c.fits = true ∧
    t.accepts = true) ∧
  (∀ (bs : List Byte) (s : State), decodeChunk bs s ≠ .blockStopped)

/-- Verifying a file's chunks, given as a list of cut-out chunks, stops at the first whose stored crc
is not the CRC of its message (`70_reset_and_hazards.md` section 3): the answer is its index, and the
block is left as the check of that chunk leaves it, with FAIL; when all pass the block is left as the
check of the last chunk leaves it, with PASS; with no chunk nothing happens. -/
def Obligations.FileStopsAtFirstBadChunk : Prop :=
  ∀ (rs : List RawChunk) (s : State), ∃ t,
    verifyAll rs s = some (rs.findIdx? (fun r => r.stored != crc32 r.chunk.message), t) ∧
    t.inputs = s.inputs ∧
    (∀ (k : Nat) (r : RawChunk),
      rs.findIdx? (fun r => r.stored != crc32 r.chunk.message) = some k → rs[k]? = some r →
      t.block = .defined ⟨absorb 0xFFFFFFFF r.chunk.message, true, true⟩) ∧
    (∀ r : RawChunk, rs.findIdx? (fun r => r.stored != crc32 r.chunk.message) = none →
      rs.getLast? = some r →
      t.block = .defined ⟨absorb 0xFFFFFFFF r.chunk.message, false, true⟩) ∧
    (rs = [] → t = s)

/-- The missing-INIT hazard (`70_reset_and_hazards.md` section 4): without INIT between two messages
the second result is the CRC of both, and the flags still describe the first. -/
def Obligations.MissingInitConcatenates : Prop :=
  ∀ (x y : List Byte) (e : Word) (s : State),
    run (.init :: (x.map .upd8 ++ .chk e :: y.map .upd8)) s = .next { s with
      block := .defined ⟨crc32 (x ++ y) ^^^ 0xFFFFFFFF, e != crc32 x, true⟩ }

/-- The residue (`70_reset_and_hazards.md` section 4): four bytes absorbed after a message leave
`0xDEBB20E3` exactly when they are its crc bytes least significant first (which for the empty message
are also the bytes in file order, 00 00 00 00); in file order the crc bytes of the two examples
leave two other values. -/
def Obligations.ResidueExactlyForReversedCrcBytes : Prop :=
  (∀ m bs : List Byte, bs.length = 4 →
    (absorb 0xFFFFFFFF (m ++ bs) = 0xDEBB20E3 ↔ bs = (be32 (crc32 m)).reverse)) ∧
  absorb 0xFFFFFFFF (workedChunk.message ++ be32 (crc32 workedChunk.message)) = 0x316907D8 ∧
  absorb 0xFFFFFFFF ([0x49, 0x45, 0x4E, 0x44] ++ [0xAE, 0x42, 0x60, 0x82]) = 0x9AFC8828

/-- The lines of the notation and their expansions (`30_encoding.md` section 6): each line's samples
run as the listed commands, and the line RESET as a reset step (the word its sample shows is the
model's choice and has no effect, log entry 4). -/
def Obligations.PseudoCommandsExpand : Prop :=
  ∀ (s : State) (i : Instr) (m p : List Byte) (t0 t1 t2 t3 c0 c1 c2 c3 : Byte),
    runSamples (Line.cmd i).samples s = run [i] s ∧
    runSamples Line.reset.samples s = .next { s with block := .defined ⟨0xFFFFFFFF, false, false⟩ } ∧
    runSamples (Line.msg m).samples s = run (m.map .upd8) s ∧
    runSamples (Line.chkbe c0 c1 c2 c3).samples s = run [.chk (c0 ++ c1 ++ c2 ++ c3)] s ∧
    runSamples (Line.crc32 m).samples s = run (.init :: m.map .upd8) s ∧
    runSamples (Line.chunkgen ⟨⟨t0, t1, t2, t3⟩, p⟩).samples s =
      run ([.init, .upd8 t0, .upd8 t1, .upd8 t2, .upd8 t3] ++ p.map .upd8) s ∧
    runSamples (Line.chunkchk ⟨⟨⟨t0, t1, t2, t3⟩, p⟩, c0, c1, c2, c3⟩).samples s =
      run ([.init, .upd8 t0, .upd8 t1, .upd8 t2, .upd8 t3] ++ p.map .upd8 ++
        [.chk (c0 ++ c1 ++ c2 ++ c3)]) s

/-- Written lines of the notation read as they are meant (a sanity statement): the examples of
`30_encoding.md` section 6, a comment, numbers out of range, and a pseudo-command of each shape. The
lines with quoted bytes or texts, commas, spacing and empty operands rest on the model's conventions
for them (log entry 4). -/
def Obligations.WrittenLinesRead : Prop :=
  readLine "UPD8 'R' ; the first byte".toList = some [.cmd (.upd8 0x52)] ∧
  readLine "UPD8 0x52".toList = some [.cmd (.upd8 0x52)] ∧
  readLine "CHK 2882656334".toList = some [.cmd (.chk 0xABD1D84E)] ∧
  readLine "CHK 0xABD1D84E".toList = some [.cmd (.chk 0xABD1D84E)] ∧
  readLine "UPD8 256".toList = none ∧ readLine "CHK 4294967296".toList = none ∧
  readLine "; only a comment".toList = some [] ∧
  readLine "RESET".toList = some [.reset] ∧ readLine "MSG".toList = some [.msg []] ∧
  readLine "MSG \"IE\"".toList = some [.msg [0x49, 0x45]] ∧
  readLine "CHKBE 0xAE 0x42 0x60 0x82".toList = some [.chkbe 0xAE 0x42 0x60 0x82] ∧
  readLine "CHUNKGEN 'I' 'E' 'N' 'D', ".toList =
    some [.chunkgen ⟨⟨0x49, 0x45, 0x4E, 0x44⟩, []⟩] ∧
  readLine "CHUNKCHK 'I' 'E' 'N' 'D', 1 2, 0xAE 0x42 0x60 0x82".toList =
    some [.chunkchk ⟨⟨⟨0x49, 0x45, 0x4E, 0x44⟩, [1, 2]⟩, 0xAE, 0x42, 0x60, 0x82⟩]
end

