-- ==== Sys2Proof/Laws/Crc.lean ====
section
/-! SUPPORT. The small lemmas of the CRC arithmetic: the bits of one update, and how the repeated
update and absorption unfold. -/

namespace Sys2Proof.Machine

/-- The form the build fixes (log entry 3). -/
@[simp] theorem step8_impl (a : Word) (d : Byte) :
    step8 Config.impl a d = step1N 8 (a ^^^ zext32 d) := rfl

@[simp] theorem absorb_nil (a : Word) : absorb a [] = a := rfl

theorem absorb_cons (a : Word) (b : Byte) (bs : List Byte) :
    absorb a (b :: bs) = absorb (step8 Config.impl a b) bs := rfl

@[simp] theorem step1N_zero (a : Word) : step1N 0 a = a := rfl

theorem step1N_succ (k : Nat) (a : Word) : step1N (k + 1) a = step1N k (step1 a) := rfl

/-- Repeated updates add up. -/
theorem step1N_add (j k : Nat) (a : Word) : step1N (j + k) a = step1N k (step1N j a) := by
  induction j generalizing a with
  | zero => rw [Nat.zero_add, step1N_zero]
  | succ j ih => rw [Nat.succ_add, step1N_succ, step1N_succ, ih]

/-- The bits of one update. -/
theorem getLsbD_step1 (a : Word) (j : Nat) :
    (step1 a).getLsbD j =
      (a.getLsbD (j + 1) ^^ (a.getLsbD 0 && Config.polyR.getLsbD j)) := by
  unfold step1
  split
  · next h => simp only [h, BitVec.getLsbD_xor, BitVec.getLsbD_ushiftRight, Nat.add_comm, Bool.true_and]
  · next h =>
    simp only [Bool.not_eq_true] at h
    simp only [h, BitVec.getLsbD_ushiftRight, Nat.add_comm, Bool.false_and, Bool.xor_false]

/-- The complement twice is the identity. -/
@[simp] theorem finalize_finalize (a : Word) : finalize (finalize a) = a := by
  simp [finalize]

/-- The bits of a zero-extended byte (rule R47). -/
theorem getLsbD_zext32 (d : Byte) (j : Nat) : (zext32 d).getLsbD j = d.getLsbD j := by
  unfold zext32
  rw [BitVec.zeroExtend, BitVec.getLsbD_setWidth]
  by_cases h : j < 32
  · rw [decide_eq_true h, Bool.true_and]
  · rw [BitVec.getLsbD_of_ge d j (by omega), Bool.and_false]

/-- The bits of four bytes read big-endian (rule R33). -/
theorem getLsbD_fromBe32 (c0 c1 c2 c3 : Byte) (j : Nat) :
    (fromBe32 c0 c1 c2 c3).getLsbD j =
      if j < 8 then c3.getLsbD j
      else if j < 16 then c2.getLsbD (j - 8)
      else if j < 24 then c1.getLsbD (j - 16)
      else c0.getLsbD (j - 24) := by
  have h : (fromBe32 c0 c1 c2 c3).getLsbD j =
      if j < 8 then c3.getLsbD j else (c0 ++ c1 ++ c2).getLsbD (j - 8) := BitVec.getLsbD_append
  rw [h, BitVec.getLsbD_append, BitVec.getLsbD_append, Nat.sub_sub, Nat.sub_sub]
  by_cases h1 : j < 8
  · rw [if_pos h1, if_pos h1]
  · by_cases h2 : j < 16
    · rw [if_neg h1, if_neg h1, if_pos h2, if_pos (by omega)]
    · by_cases h3 : j < 24
      · rw [if_neg h1, if_neg h1, if_neg h2, if_pos h3, if_neg (by omega), if_pos (by omega)]
      · rw [if_neg h1, if_neg h1, if_neg h2, if_neg h3, if_neg (by omega), if_neg (by omega)]

end Sys2Proof.Machine
end

