-- ==== Sys2Proof/Laws/Encoding.lean ====
section
/-! SUPPORT. The bits of a command word's fields and of an encoded command, and the decoder case by
case. -/

namespace Sys2Proof

theorem getLsbD_opField (w : CmdWord) (j : Nat) :
    (opField w).getLsbD j = (decide (j < 2) && w.getLsbD (32 + j)) :=
  BitVec.getLsbD_extractLsb' ..

theorem getLsbD_argField (w : CmdWord) (j : Nat) :
    (argField w).getLsbD j = (decide (j < 32) && w.getLsbD j) := by
  unfold argField
  rw [BitVec.getLsbD_extractLsb', Nat.zero_add]

theorem getLsbD_byteField (w : CmdWord) (j : Nat) :
    (byteField w).getLsbD j = (decide (j < 8) && w.getLsbD j) := by
  unfold byteField
  rw [BitVec.getLsbD_extractLsb', Nat.zero_add]

/-- The bits of an opcode put before an argument. -/
theorem getLsbD_opArg (a : BitVec 2) (b : Word) (j : Nat) :
    (show CmdWord from a ++ b).getLsbD j = if j < 32 then b.getLsbD j else a.getLsbD (j - 32) :=
  BitVec.getLsbD_append

/-- The bits of an encoded UPD8 (rule R46). -/
theorem getLsbD_encode_upd8 (d : Byte) (j : Nat) :
    (encode (.upd8 d)).getLsbD j = (d.getLsbD j || decide (j = 33)) := by
  have h : (encode (.upd8 d)).getLsbD j =
      if j < 8 then d.getLsbD j else (0b10#2 ++ 0#24).getLsbD (j - 8) := BitVec.getLsbD_append
  rw [h, BitVec.getLsbD_append]
  split
  · simp only [show j ≠ 33 by omega, decide_false, Bool.or_false]
  · rw [BitVec.getLsbD_of_ge d j (by omega), Bool.false_or, BitVec.getLsbD_zero]
    by_cases h33 : j = 33
    · subst h33; decide
    · simp only [h33, decide_false]
      split
      · rfl
      · by_cases h32 : j = 32
        · subst h32; decide
        · exact BitVec.getLsbD_of_ge _ _ (by omega)

/-- The bits of an encoded CHK (rule R46). -/
theorem getLsbD_encode_chk (e : Word) (j : Nat) :
    (encode (.chk e)).getLsbD j = (e.getLsbD j || decide (j = 32) || decide (j = 33)) := by
  have h : (encode (.chk e)).getLsbD j = if j < 32 then e.getLsbD j else (0b11#2).getLsbD (j - 32) :=
    BitVec.getLsbD_append
  rw [h]
  split
  · simp only [show j ≠ 32 by omega, show j ≠ 33 by omega, decide_false, Bool.or_false]
  · rw [BitVec.getLsbD_of_ge e j (by omega), Bool.false_or]
    by_cases h32 : j = 32
    · subst h32; decide
    · by_cases h33 : j = 33
      · subst h33; decide
      · simp only [h32, h33, decide_false, Bool.or_false]
        exact BitVec.getLsbD_of_ge _ _ (by omega)

/-- There are four opcodes (rule R50). -/
theorem opField_cases (w : CmdWord) :
    opField w = 0 ∨ opField w = 1 ∨ opField w = 2 ∨ opField w = 3 := by
  generalize opField w = x
  revert x
  decide

theorem decode_op0 {w : CmdWord} (h : opField w = 0) : decode w = .nop := if_pos h

theorem decode_op1 {w : CmdWord} (h : opField w = 1) : decode w = .init := by
  unfold decode
  rw [h]
  rfl

theorem decode_op2 {w : CmdWord} (h : opField w = 2) : decode w = .upd8 (byteField w) := by
  unfold decode
  rw [h]
  rfl

theorem decode_op3 {w : CmdWord} (h : opField w = 3) : decode w = .chk (argField w) := by
  unfold decode
  rw [h]
  rfl

end Sys2Proof
end

