-- ==== Sys2Proof/Laws/State.lean ====
section
/-! SUPPORT. The fields of each state update and of the named states, one lemma each. -/

namespace Sys2Proof.Machine

@[simp] theorem startMessage_block (s : State) :
    (startMessage s).block = .defined Regs.start := rfl

@[simp] theorem startMessage_inputs (s : State) : (startMessage s).inputs = s.inputs := rfl

@[simp] theorem present_block (p : Sample) (s : State) : (present p s).block = s.block := rfl

@[simp] theorem present_inputs (p : Sample) (s : State) :
    (present p s).inputs = p :: s.inputs := rfl

@[simp] theorem absorbByte_acc (x : Config.Impl) (d : Byte) (r : Regs) :
    (absorbByte x d r).acc = step8 x r.acc d := rfl

@[simp] theorem absorbByte_mm (x : Config.Impl) (d : Byte) (r : Regs) :
    (absorbByte x d r).mm = r.mm := rfl

@[simp] theorem absorbByte_ck (x : Config.Impl) (d : Byte) (r : Regs) :
    (absorbByte x d r).ck = r.ck := rfl

@[simp] theorem recordCheck_acc (e : Word) (r : Regs) : (recordCheck e r).acc = r.acc := rfl

@[simp] theorem recordCheck_mm (e : Word) (r : Regs) :
    (recordCheck e r).mm = (r.mm || (finalize r.acc != e)) := rfl

@[simp] theorem recordCheck_ck (e : Word) (r : Regs) : (recordCheck e r).ck = true := rfl

@[simp] theorem start_acc : Regs.start.acc = 0xFFFFFFFF := rfl

@[simp] theorem start_mm : Regs.start.mm = false := rfl

@[simp] theorem start_ck : Regs.start.ck = false := rfl

@[simp] theorem obs_powerOn (ps : List Sample) : State.obs ⟨.powerOn, ps⟩ = none := rfl

@[simp] theorem obs_defined (r : Regs) (ps : List Sample) :
    State.obs ⟨.defined r, ps⟩ = some ⟨finalize r.acc, r.mm, r.ck⟩ := rfl

@[simp] theorem crcOut_defined (r : Regs) (ps : List Sample) :
    State.crcOut ⟨.defined r, ps⟩ = some (finalize r.acc) := rfl

@[simp] theorem mmOut_defined (r : Regs) (ps : List Sample) :
    State.mmOut ⟨.defined r, ps⟩ = some r.mm := rfl

@[simp] theorem ckOut_defined (r : Regs) (ps : List Sample) :
    State.ckOut ⟨.defined r, ps⟩ = some r.ck := rfl

@[simp] theorem verdict_defined (r : Regs) (ps : List Sample) :
    State.verdict ⟨.defined r, ps⟩ = some (verdict r.mm r.ck) := rfl

end Sys2Proof.Machine
end

