-- ==== Sys2Proof/Laws/Ops.lean ====
section
/-! SUPPORT. What each shared operation, `exec`, `clock`, `step` and a run can do, said once. -/

namespace Sys2Proof.Machine

/-- A defined state is its registers and its waiting samples. -/
theorem isDefined_iff (s : State) : s.isDefined = true ↔ ∃ r, s = ⟨.defined r, s.inputs⟩ := by
  obtain ⟨_ | r, ps⟩ := s <;> simp [State.isDefined]

@[simp] theorem onDefined_defined (r : Regs) (ps : List Sample) (f : Regs → Regs) :
    onDefined ⟨.defined r, ps⟩ f = .next ⟨.defined (f r), ps⟩ := rfl

@[simp] theorem onDefined_powerOn (ps : List Sample) (f : Regs → Regs) :
    onDefined ⟨.powerOn, ps⟩ f = .fault .powerOnRead := rfl

/-- What `onDefined` can answer. -/
theorem onDefined_cases (s : State) (f : Regs → Regs) :
    (s.block = .powerOn ∧ onDefined s f = .fault .powerOnRead) ∨
    ∃ r, s.block = .defined r ∧ onDefined s f = .next { s with block := .defined (f r) } := by
  obtain ⟨_ | r, ps⟩ := s
  · exact .inl ⟨rfl, rfl⟩
  · exact .inr ⟨r, rfl, rfl⟩

/-- The registers after a command on a defined state (the cases of rule R22). -/
def Regs.after (i : Instr) (r : Regs) : Regs :=
  match i with
  | .nop => r
  | .init => Regs.start
  | .upd8 d => absorbByte Config.impl d r
  | .chk e => recordCheck e r

/-- A command on a defined state always answers a next state, and this is it. -/
@[simp] theorem exec_defined (i : Instr) (r : Regs) (ps : List Sample) :
    exec i ⟨.defined r, ps⟩ = .next ⟨.defined (r.after i), ps⟩ := by
  cases i <;> rfl

/-- INIT answers the start values from every state. -/
@[simp] theorem exec_init (s : State) : exec .init s = .next ⟨.defined Regs.start, s.inputs⟩ := rfl

/-- If a command answers a next state, then that state is one of these. -/
theorem exec_next_cases {i : Instr} {s t : State} (h : exec i s = .next t) :
    (i = .nop ∧ t = s) ∨ (i = .init ∧ t = startMessage s) ∨
    ∃ r, s.block = .defined r ∧ t = { s with block := .defined (r.after i) } := by
  obtain ⟨_ | r, ps⟩ := s
  · cases i with
    | nop => cases h; exact .inl ⟨rfl, rfl⟩
    | init => cases h; exact .inr (.inl ⟨rfl, rfl⟩)
    | upd8 d => cases h
    | chk e => cases h
  · rw [exec_defined] at h
    cases h
    exact .inr (.inr ⟨r, rfl, rfl⟩)

/-- The registers after a clocked sample on a defined state. -/
def Regs.clocked (p : Sample) (r : Regs) : Regs :=
  if p.rst then Regs.start else r.after (decode p.cmd)

@[simp] theorem clock_defined (p : Sample) (r : Regs) (ps : List Sample) :
    clock p ⟨.defined r, ps⟩ = .next ⟨.defined (r.clocked p), ps⟩ := by
  unfold clock Regs.clocked
  split
  · rfl
  · exact exec_defined _ _ _

/-- What a clocked sample can answer. -/
theorem clock_cases (p : Sample) (s : State) :
    (p.rst = true ∧ clock p s = .next (startMessage s)) ∨
    (p.rst = false ∧ clock p s = exec (decode p.cmd) s) := by
  unfold clock
  cases p.rst
  · exact .inr ⟨rfl, rfl⟩
  · exact .inl ⟨rfl, rfl⟩

/-- A step with a sample waiting clocks that sample. -/
theorem step_cons (b : Block) (p : Sample) (ps : List Sample) :
    step ⟨b, p :: ps⟩ = clock p ⟨b, ps⟩ := rfl

theorem step_nil (b : Block) : step ⟨b, []⟩ = .refused .endOfRun := rfl

/-- The registers after a list of commands on a defined state. -/
def Regs.afterAll (cs : List Instr) (r : Regs) : Regs := cs.foldl (fun q c => q.after c) r

/-- A run from a defined state always completes. -/
theorem run_defined (cs : List Instr) (r : Regs) (ps : List Sample) :
    run cs ⟨.defined r, ps⟩ = .next ⟨.defined (r.afterAll cs), ps⟩ := by
  induction cs generalizing r with
  | nil => rfl
  | cons c cs ih =>
    rw [run, exec_defined]
    exact ih _

/-- A run that begins with INIT completes from every state. -/
theorem run_init (cs : List Instr) (s : State) :
    run (.init :: cs) s = .next ⟨.defined (Regs.start.afterAll cs), s.inputs⟩ := by
  rw [run, exec_init]
  exact run_defined _ _ _

/-- The registers after a list of samples on a defined state. -/
def Regs.clockedAll (ps : List Sample) (r : Regs) : Regs := ps.foldl (fun q p => q.clocked p) r

/-- A concatenation of command lists acts on the registers part by part. -/
theorem afterAll_append (cs ds : List Instr) (r : Regs) :
    r.afterAll (cs ++ ds) = (r.afterAll cs).afterAll ds := by
  unfold Regs.afterAll
  rw [List.foldl_append]

/-- Feeding bytes absorbs them and keeps the flags. -/
theorem afterAll_upd8 (m : List Byte) (r : Regs) :
    r.afterAll (m.map .upd8) = ⟨absorb r.acc m, r.mm, r.ck⟩ := by
  induction m generalizing r with
  | nil => rfl
  | cons b m ih => exact ih _

/-- A sample that starts a message loads the start values in every state. -/
theorem clock_restarts {p : Sample} (h : p.restarts = true) (s : State) :
    clock p s = .next (startMessage s) := by
  unfold Sample.restarts at h
  obtain ⟨_, hc⟩ | ⟨hr, hc⟩ := clock_cases p s
  · exact hc
  · rw [hr, Bool.false_or, beq_iff_eq] at h
    rw [hc, decode_op1 h]
    rfl

theorem runSamples_defined (qs : List Sample) (r : Regs) (ps : List Sample) :
    runSamples qs ⟨.defined r, ps⟩ = .next ⟨.defined (r.clockedAll qs), ps⟩ := by
  induction qs generalizing r with
  | nil => rfl
  | cons p qs ih =>
    rw [runSamples, clock_defined]
    exact ih _

/-- Running a concatenation is running its parts one after the other. -/
theorem run_append (cs ds : List Instr) (s : State) :
    run (cs ++ ds) s =
      match run cs s with
      | .next t => run ds t
      | .fault f => .fault f
      | .refused r => .refused r := by
  induction cs generalizing s with
  | nil => rfl
  | cons c cs ih =>
    rw [List.cons_append, run, run]
    split
    · exact ih _
    · rfl
    · rfl

/-- One step of the host's `run`, in each outcome, on any machine. -/
theorem core_run_succ (M : Host.Core) (n : Nat) (s : M.State) :
    (∀ t, M.step s = .next t → M.run (n + 1) s = M.run n t) ∧
    (∀ f, M.step s = .fault f → M.run (n + 1) s = .fault f) ∧
    (∀ r, M.step s = .refused r → M.run (n + 1) s = .refused r) := by
  refine ⟨fun t h => ?_, fun f h => ?_, fun r h => ?_⟩ <;> · rw [Host.Core.run, h]

/-- The host's `run` on this machine when the step answers a next state. -/
theorem core_run_next {n : Nat} {s t : State} (h : step s = .next t) :
    Host.Core.run Sys2Proof.core (n + 1) s = Host.Core.run Sys2Proof.core n t :=
  (core_run_succ Sys2Proof.core n s).1 t h

/-- The host's `run` on this machine when the step faults. -/
theorem core_run_fault {n : Nat} {s : State} {f : Fault} (h : step s = .fault f) :
    Host.Core.run Sys2Proof.core (n + 1) s = .fault f :=
  (core_run_succ Sys2Proof.core n s).2.1 f h

end Sys2Proof.Machine
end

