-- ==== Sys2Proof/Laws/PerInstr.lean ====
section
/-! SUPPORT. The statements made once per instruction, about it as syntax. -/

namespace Sys2Proof

/-- Under the table's mask the canonical word of an instruction is its row's match word
(rules R45, R46). -/
def Laws.TableRow.Statement (i : Instr) : Prop := encode i &&& 0x300000000 = matchWord i

theorem Laws.TableRow.nop : Laws.TableRow.Statement .nop := by
  unfold Laws.TableRow.Statement
  decide

theorem Laws.TableRow.init : Laws.TableRow.Statement .init := by
  unfold Laws.TableRow.Statement
  decide

theorem Laws.TableRow.upd8 (d : Byte) : Laws.TableRow.Statement (.upd8 d) := by
  change (0b10#2 ++ 0#24 ++ d : BitVec 34) &&& (0b11#2 ++ 0#24 ++ 0#8) = 0b10#2 ++ 0#24 ++ 0#8
  rw [BitVec.and_append, BitVec.and_zero]
  rfl

theorem Laws.TableRow.chk (exp : Word) : Laws.TableRow.Statement (.chk exp) := by
  change (0b11#2 ++ exp : BitVec 34) &&& (0b11#2 ++ 0#32) = 0b11#2 ++ 0#32
  rw [BitVec.and_append, BitVec.and_zero]
  rfl

end Sys2Proof
end

