-- ==== Sys2Proof/Tests/Slice0.lean ====
section
/-! SUPPORT. Tests with expected results from the spec's own tables, and for each statement with
hypotheses a witness that meets them together. -/

namespace Sys2Proof.Machine

/-- A defined state with nothing waiting. -/
def at_ (acc : Word) (mm ck : Bool) : State := ⟨.defined ⟨acc, mm, ck⟩, []⟩

/-- What one command leaves in the block: `none` when it stops. -/
def blockAfter (i : Instr) (s : State) : Option Block :=
  match exec i s with
  | .next t => some t.block
  | .fault _ => none
  | .refused _ => none

/-! ## Ill-formed terms are refused (rules R44, R49, R52) -/

theorem test_commandNumber_refuses : isCommandNumber (2 ^ 34) = false := by decide

theorem test_commandNumber_top : isCommandNumber 0x3FFFFFFFF = true := by decide

theorem test_byteNumber_refuses : isByteNumber 256 = false := by decide

theorem test_wordNumber_refuses : isWordNumber 4294967296 = false := by decide

theorem test_asciiChar_refuses : isAsciiChar 'é' = false := by decide

theorem test_canonical_refuses : isCanonical 0x200000100 = false := by decide

theorem test_decodeNumber_refuses_by_name :
    decodeNumber (2 ^ 34) = .error .notACommandWord := by decide

/-! ## Words written out bit by bit from rule R46 -/

theorem test_decode_nop : decode 0b0000000000000000000000000000000000 = .nop := by decide

theorem test_decode_init : decode 0b0100000000000000000000000000000000 = .init := by decide

/-- `UPD8 0x52`: opcode `10`, 24 zeros, `01010010`. -/
theorem test_decode_upd8 : decode 0b1000000000000000000000000001010010 = .upd8 0x52 := by decide

/-- `CHK 0xABD1D84E`: opcode `11`, then the 32 bits. -/
theorem test_decode_chk :
    decode 0b1110101011110100011101100001001110 = .chk 0xABD1D84E := by decide

theorem test_decodeTableWord : decodeTableWord 40 0x2ABCDEF49 = some (.upd8 0x49) := by decide

/-! ## One command each (`95_test_vectors.md` sections 2.2 to 2.5) -/

theorem test_nop_keeps : blockAfter .nop (at_ 0x2B7BF6C3 true true) =
    some (.defined ⟨0x2B7BF6C3, true, true⟩) := by decide

theorem test_nop_powerOn : blockAfter .nop .powerOn = some .powerOn := by decide

theorem test_init_clears : blockAfter .init (at_ 0x542E27B1 true true) =
    some (.defined ⟨0xFFFFFFFF, false, false⟩) := by decide

theorem test_init_powerOn : blockAfter .init .powerOn =
    some (.defined ⟨0xFFFFFFFF, false, false⟩) := by decide

theorem test_upd8_row : blockAfter (.upd8 0x9A) (at_ 0x12345678 false true) =
    some (.defined ⟨0x4E16B702, false, true⟩) := by decide

theorem test_upd8_powerOn : blockAfter (.upd8 0x52) .powerOn = none := by decide

/-- A byte-swapped expected value fails (row 7 of section 2.5). -/
theorem test_chk_swapped : blockAfter (.chk 0x4ED8D1AB) (at_ 0x542E27B1 false false) =
    some (.defined ⟨0x542E27B1, true, true⟩) := by decide

/-- A later match does not clear `MM` (row 9 of section 2.5). -/
theorem test_chk_sticky : blockAfter (.chk 0xABD1D84E) (at_ 0x542E27B1 true true) =
    some (.defined ⟨0x542E27B1, true, true⟩) := by decide

/-- Section 2.7: a reset step does not execute the CHK on `cmd`. -/
theorem test_reset_wins :
    step ⟨.defined ⟨0x51BD9F7D, false, false⟩, [⟨true, 0x3AE426082⟩]⟩ =
      .next ⟨.defined ⟨0xFFFFFFFF, false, false⟩, []⟩ := rfl

/-- P6 step 3: ignored bits set, from the state P6 gives. -/
theorem test_step_ignored_bits :
    step ⟨.defined ⟨0x22FDE946, false, false⟩, [⟨false, 0x2FFFFFF45⟩]⟩ =
      .next ⟨.defined ⟨0x992BAC53, false, false⟩, []⟩ := rfl

theorem test_fetchWord_runs_first :
    step (State.reset.withFetchWord 40 0x200000052) =
      .next ⟨.defined ⟨0xA89820AA, false, false⟩, []⟩ := rfl

theorem test_be32 : be32 0xABD1D84E = [0xAB, 0xD1, 0xD8, 0x4E] := by decide

/-- V4: the file of the signature and the chunk of V1 has 62 bytes. -/
theorem test_file_length : (fileBytes [(workedChunk, 0xABD1D84E)]).length = 62 := by decide

/-! ## Witnesses: the hypotheses of the statements can be met -/

theorem witness_DecodeEncodeAgree :
    (0x0DEADBEEF : CmdWord).extractLsb' 32 2 = 0#2 ∧ (0x1FFFFFFFF : CmdWord).extractLsb' 32 2 = 1#2 ∧
    (0x2FFFFFF52 : CmdWord).extractLsb' 32 2 = 2#2 ∧
    (0x3FFFFFFFF : CmdWord).extractLsb' 32 2 = 3#2 := by decide

theorem witness_IgnoredBitsHaveNoEffect :
    (opField 0x2FFFFFF52 = opField 0x200000052 ∧ byteField 0x2FFFFFF52 = byteField 0x200000052) ∧
    opField 0x0FFFFFFFF = opField 0x000000000 ∧ opField 0x1FFFFFFFF = opField 0x100000000 ∧
    (opField 0x3ABD1D84E = 3 ∧ argField 0x3ABD1D84E = argField 0x3ABD1D84E) ∧
    (0xABD1D84E : Word) ≠ 0xABD1D84D := by decide

theorem witness_PresentedNumberRuns :
    (2 ^ 34 - 1 < 2 ^ 40 ∧ 2 ^ 34 - 1 < 2 ^ 34) ∧ (2 ^ 34 < 2 ^ 40 ∧ 2 ^ 34 ≤ 2 ^ 34) := by decide

theorem witness_StepRunsDecodedCommand :
    (State.reset.withFetchWord 40 0x200000052).inputs = ⟨false, 0x200000052⟩ :: [] := by decide

theorem witness_StepRefusedOnlyAtEndOfRun : State.reset.inputs = [] := rfl

theorem witness_ResetOverridesCommand :
    (⟨.powerOn, [⟨true, 0x3AE426082⟩]⟩ : State).inputs = ⟨true, 0x3AE426082⟩ :: [] := rfl

theorem witness_RunAndObservation : exec (.chk 0) State.reset =
    .next ⟨.defined ⟨0xFFFFFFFF, false, true⟩, []⟩ := rfl

theorem witness_NopChangesNothing : opField 0x0DEADBEEF = 0 := by decide

theorem witness_InitStartsMessage :
    opField 0x1FFFFFFFF = 1 ∧ State.powerOn.inputs = State.reset.inputs ∧
    exec .init State.powerOn = .next State.reset := ⟨by decide, rfl, rfl⟩

theorem witness_Upd8AbsorbsByte :
    State.reset.block = .defined Regs.start ∧ opField 0x2FFFFFF52 = 2 ∧
    State.powerOn.block = .powerOn := by decide

theorem witness_ChkComparesAllBits :
    (at_ 0x542E27B1 false false).block = .defined ⟨0x542E27B1, false, false⟩ ∧
    opField 0x3ABD1D84E = 3 ∧
    (0x2BD1D84E : Word).getLsbD 31 ≠ ((0x542E27B1 : Word) ^^^ 0xFFFFFFFF).getLsbD 31 ∧
    (0xABD1D84F : Word).getLsbD 0 ≠ ((0x542E27B1 : Word) ^^^ 0xFFFFFFFF).getLsbD 0 ∧
    State.powerOn.block = .powerOn := by decide

theorem witness_CommandsStopOnlyAtPowerOn :
    State.reset.isDefined = true ∧ State.powerOn.isDefined = false := by decide

/-- Each command answers a next state from a defined one; UPD8 changes `ACC`, CHK sets both flags. -/
theorem witness_CommandFrames :
    exec .nop State.reset = .next State.reset ∧ exec .init State.reset = .next State.reset ∧
    exec (.upd8 0x52) State.reset = .next (at_ 0xA89820AA false false) ∧
    exec (.chk 1) State.reset = .next (at_ 0xFFFFFFFF true true) := ⟨rfl, rfl, rfl, rfl⟩

theorem witness_NoSampleLoadsAcc :
    clock ⟨false, 0x2FFFFFF52⟩ State.reset = .next (at_ 0xA89820AA false false) ∧
    clock ⟨true, 0x2FFFFFF52⟩ (at_ 5 true true) = .next State.reset ∧
    clock ⟨false, 0x3FFFFFFFF⟩ State.reset = .next (at_ 0xFFFFFFFF true true) ∧
    clock ⟨false, 0x1FFFFFFFF⟩ State.powerOn = .next State.reset ∧
    clock ⟨true, 0x2FFFFFF52⟩ State.powerOn = .next State.reset := ⟨rfl, rfl, rfl, rfl, rfl⟩

theorem witness_StepKeepsFlagsAgree :
    State.flagsAgree ⟨.defined ⟨0, false, false⟩, [⟨false, 0x300000000⟩]⟩ = true ∧
    step ⟨.defined ⟨0, false, false⟩, [⟨false, 0x300000000⟩]⟩ = .next (at_ 0 true true) ∧
    State.isDefined ⟨.defined ⟨0, false, false⟩, [⟨false, 0x300000000⟩]⟩ = true := ⟨rfl, rfl, rfl⟩

theorem witness_ReachableExactlyWhenFlagsAgree :
    Sample.restarts ⟨true, 0x3AE426082⟩ = true ∧ Sample.restarts ⟨false, 0x1FFFFFFFF⟩ = true ∧
    ((at_ 7 true true).flagsAgree = true ∧ (at_ 7 false true).flagsAgree = true ∧
      (at_ 7 false false).flagsAgree = true ∧ (at_ 7 true false).flagsAgree = false) := by decide

theorem witness_StateReportsSinceStart :
    State.reset.isDefined = true ∧ Sample.restarts (sampleOf .init) = true ∧
    ∀ q ∈ [sampleOf (.upd8 0x49), sampleOf (.chk 0), sampleOf .nop], q.restarts = false := by decide

theorem witness_VerdictOfFlags :
    (at_ 0 false false).verdict = some .notChecked ∧ (at_ 0 false true).verdict = some .pass ∧
    (at_ 0 true true).verdict = some .fail := by decide

theorem witness_OutputIsComplement : (31 < 32) ∧ (0 < 32) := by decide

theorem witness_ControlLaws :
    State.powerOn.inputs = State.reset.inputs ∧ State.reset.isDefined = true := by decide

theorem witness_ChkLaws :
    exec (.chk 5) State.reset = .next (at_ 0xFFFFFFFF true true) ∧
    Instr.init ∉ [Instr.upd8 1, Instr.chk 2, Instr.nop] := ⟨rfl, by decide⟩

theorem witness_BitUpdateLinear :
    ∀ j, j < 32 → (0 : Word).getLsbD j = false := by decide

theorem witness_BitUpdateLinear_inner :
    8 ≤ 32 ∧ ∀ j, j < 8 → (0xFFFFFF00 : Word).getLsbD j = false := by decide

theorem witness_WholeMessageCrc :
    ∀ c ∈ [Instr.upd8 0x52, Instr.nop, Instr.upd8 0x75], c = .nop ∨ ∃ d, c = .upd8 d := by
  simp

theorem witness_BigEndianRoundTrip : be32 0x0000002A = [0, 0, 0, 0x2A] := by decide

theorem witness_ChunkLayout : workedChunk.fits = true := by decide

/-- A length of 2 with one payload byte; with exactly two; with two and three crc bytes. -/
theorem witness_SlicingErrors :
    [(1 : Byte)].length < (2 : Word).toNat ∧
    ((2 : Word).toNat ≤ [(1 : Byte), 2].length ∧
      [(1 : Byte), 2].length < (2 : Word).toNat + 4) ∧
    ((2 : Word).toNat ≤ [(1 : Byte), 2, 3, 4, 5].length ∧
      [(1 : Byte), 2, 3, 4, 5].length < (2 : Word).toNat + 4) := by decide

/-- The `IEND` chunk with an empty payload. -/
def iend : Chunk := ⟨⟨0x49, 0x45, 0x4E, 0x44⟩, []⟩

theorem witness_GenerateThenVerify : iend.fits = true := by decide

/-- P4: the stored crc with its lowest bit flipped; and one message byte changed under a crc that
fits the unchanged message. -/
theorem witness_SingleChangeDetected :
    (RawChunk.stored ⟨iend, 0xAE, 0x42, 0x60, 0x83⟩ ≠ crc32 iend.message) ∧
    ((0x44 : Byte) ≠ 0x45 ∧
      Chunk.message ⟨⟨0x49, 0x45, 0x4E, 0x45⟩, []⟩ = [0x49, 0x45, 0x4E] ++ 0x45 :: [] ∧
      RawChunk.stored ⟨⟨⟨0x49, 0x45, 0x4E, 0x45⟩, []⟩, 0xAE, 0x42, 0x60, 0x82⟩ =
        crc32 ([0x49, 0x45, 0x4E] ++ 0x44 :: [])) := by decide +kernel

/-- Two five-byte messages that differ in bit 4 of the first byte and bit 3 of the last, the two
ends of 32 consecutive positions from position 4. -/
theorem witness_BurstOf32BitsDetected :
    [(0x10 : Byte), 0, 0, 0, 0x08].length = [(0 : Byte), 0, 0, 0, 0].length ∧
    [(0x10 : Byte), 0, 0, 0, 0x08] ≠ [(0 : Byte), 0, 0, 0, 0] ∧
    ∀ i, i < 40 → (i < 4 ∨ 4 + 32 ≤ i) →
      ([(0x10 : Byte), 0, 0, 0, 0x08].getD (i / 8) 0).getLsbD (i % 8) =
        ([(0 : Byte), 0, 0, 0, 0].getD (i / 8) 0).getLsbD (i % 8) := by decide

/-- A good `IEND` chunk before a bad one (index 1), and a good one alone. -/
theorem witness_FileStopsAtFirstBadChunk :
    ([⟨iend, 0xAE, 0x42, 0x60, 0x82⟩, ⟨iend, 0xAE, 0x42, 0x60, 0x83⟩].findIdx?
        (fun r : RawChunk => r.stored != crc32 r.chunk.message) = some 1 ∧
      [⟨iend, 0xAE, 0x42, 0x60, 0x82⟩, ⟨iend, 0xAE, 0x42, 0x60, 0x83⟩][1]? =
        some (⟨iend, 0xAE, 0x42, 0x60, 0x83⟩ : RawChunk)) ∧
    ([⟨iend, 0xAE, 0x42, 0x60, 0x82⟩].findIdx?
        (fun r : RawChunk => r.stored != crc32 r.chunk.message) = none ∧
      [⟨iend, 0xAE, 0x42, 0x60, 0x82⟩].getLast? =
        some (⟨iend, 0xAE, 0x42, 0x60, 0x82⟩ : RawChunk)) ∧
    ([] : List RawChunk) = [] := by decide +kernel

/-- The crc bytes of `IEND` least significant first, and in file order. -/
theorem witness_ResidueExactlyForReversedCrcBytes :
    ([0x82, 0x60, 0x42, 0xAE] : List Byte).length = 4 ∧
    ([0xAE, 0x42, 0x60, 0x82] : List Byte).length = 4 := by decide

/-- A quoted `;` is a character (log entry 4). -/
theorem test_quoted_semicolon : readLine "UPD8 ';' ; comment".toList =
    some [.cmd (.upd8 0x3B)] := by decide

/-- A closing quote ends its operand without a blank; an opening quote needs one (log entry 4). -/
theorem test_closing_quote_separates :
    readLine "MSG 'a''b'".toList = some [.msg [0x61, 0x62]] ∧
    readLine "MSG 'R'0x52".toList = some [.msg [0x52, 0x52]] ∧
    readLine "MSG 0x52'R'".toList = none := by decide

/-- Bare hexadecimal bytes are no byte operands (log entry 4). -/
theorem test_bare_hex_refused : readLine "CHKBE AE 42 60 82".toList = none := by decide

/-- P3, from its dirty state: the input is the `IEND` chunk with one byte after it. -/
theorem witness_OnlyCheckedChunksAccepted :
    decodeChunk [0, 0, 0, 0, 0x49, 0x45, 0x4E, 0x44, 0xAE, 0x42, 0x60, 0x82, 7]
        (at_ 0x12345678 true true) =
      .accepted 0 iend 0xAE426082 [7] (at_ 0x51BD9F7D false true) := by decide +kernel

end Sys2Proof.Machine
end

section
/-! The two forms of the byte update agree, by the argument of rule R70: the update is linear and is
a plain shift while the bits it looks at are 0 (rule R68). -/

namespace Sys2Proof.Machine

/-- The one-bit update is linear (rule R68). -/
theorem step1_xor (u v : Word) : step1 (u ^^^ v) = step1 u ^^^ step1 v := by
  ext j
  simp only [← BitVec.getLsbD_eq_getElem, BitVec.getLsbD_xor, getLsbD_step1,
    Bool.and_xor_distrib_right, Bool.xor_assoc, Bool.xor_left_comm]

/-- The repeated update is linear (rule R68). -/
theorem step1N_xor (k : Nat) (u v : Word) :
    step1N k (u ^^^ v) = step1N k u ^^^ step1N k v := by
  induction k generalizing u v with
  | zero => rfl
  | succ k ih => rw [step1N_succ, step1_xor, ih, step1N_succ, step1N_succ]

/-- With bit 0 clear, the one-bit update is a shift (rule R65). -/
theorem step1_of_low_bit_zero {h : Word} (h0 : h.getLsbD 0 = false) : step1 h = h >>> 1 := by
  rw [step1, if_neg (Bool.eq_false_iff.mp h0)]

/-- With the low `k` bits clear, `k` updates are a shift (rule R68). -/
theorem step1N_of_low_bits_zero {k : Nat} {h : Word} (low : ∀ j < k, h.getLsbD j = false) :
    step1N k h = h >>> k := by
  induction k generalizing h with
  | zero => rw [step1N_zero, BitVec.ushiftRight_zero]
  | succ k ih =>
    have low' : ∀ j < k, (h >>> 1).getLsbD j = false := fun j hj => by
      rw [BitVec.getLsbD_ushiftRight]
      exact low (1 + j) (by omega)
    rw [step1N_succ, step1_of_low_bit_zero (low 0 k.succ_pos), ih low', ← BitVec.shiftRight_add,
      Nat.add_comm]

/-- A byte does not reach past the lowest byte of the register (rule R70). -/
theorem xor_zext32_ushiftRight_eight (a : Word) (d : Byte) : (a ^^^ zext32 d) >>> 8 = a >>> 8 := by
  ext j
  simp only [← BitVec.getLsbD_eq_getElem, BitVec.getLsbD_ushiftRight, BitVec.getLsbD_xor,
    getLsbD_zext32, BitVec.getLsbD_of_ge d (8 + j) (Nat.le_add_right 8 j), Bool.xor_false]

/-- Once the low byte is cleared, eight updates only shift (the `hi` of rule R70). -/
theorem step1N_eight_xor_low_byte (x : Word) :
    step1N 8 (x ^^^ zext32 (x.extractLsb' 0 8)) = x >>> 8 := by
  have low : ∀ j < 8, (x ^^^ zext32 (x.extractLsb' 0 8)).getLsbD j = false := fun j hj => by
    simp [getLsbD_zext32, hj]
  rw [step1N_of_low_bits_zero low, xor_zext32_ushiftRight_eight]

/-- Eight updates look up the low byte and shift the rest (rule R70). -/
theorem step1N_eight_eq_lut_xor (x : Word) :
    step1N 8 x = lut (x.extractLsb' 0 8) ^^^ (x >>> 8) :=
  calc step1N 8 x
      = step1N 8 (zext32 (x.extractLsb' 0 8) ^^^ (x ^^^ zext32 (x.extractLsb' 0 8))) := by
        rw [BitVec.xor_comm x, ← BitVec.xor_assoc, BitVec.xor_self, BitVec.zero_xor]
    _ = lut (x.extractLsb' 0 8) ^^^ step1N 8 (x ^^^ zext32 (x.extractLsb' 0 8)) :=
        step1N_xor 8 _ _
    _ = lut (x.extractLsb' 0 8) ^^^ (x >>> 8) := by rw [step1N_eight_xor_low_byte]

/-- The table form is the bitwise form (rule R70). -/
theorem step8Lut_eq_step8Bitwise (a : Word) (d : Byte) : step8Lut a d = step8Bitwise a d := by
  rw [step8Bitwise, step1N_eight_eq_lut_xor, xor_zext32_ushiftRight_eight, step8Lut, lutIndex]

/-- Either build parameter gives the bitwise form (rule R70). -/
theorem step8_eq_step8Bitwise (x : Config.Impl) (a : Word) (d : Byte) :
    step8 x a d = step8Bitwise a d := by
  cases x with
  | bitwise => rfl
  | lut => exact step8Lut_eq_step8Bitwise a d

/-- The build parameter changes nothing of what absorbing a byte does to the registers (rule R8). -/
theorem absorbByte_impl_irrelevant (x y : Config.Impl) (d : Byte) :
    absorbByte x d = absorbByte y d := by
  funext r
  rw [absorbByte, absorbByte, step8_eq_step8Bitwise, step8_eq_step8Bitwise]

/-- Settles O34: the table lookup is the bitwise update of the register's low byte, by linearity; the
upper bytes are only shifted. -/
theorem lutFormEqualsBitwise : Obligations.LutFormEqualsBitwise := by
  refine ⟨step8Lut_eq_step8Bitwise, fun x y a d => ?_, fun x s d => ?_⟩
  · rw [step8_eq_step8Bitwise x, step8_eq_step8Bitwise y]
  · exact congrArg (onDefined s) (absorbByte_impl_irrelevant Config.impl x d)

end Sys2Proof.Machine
end

section
/-! Encoding a command and decoding it gives it back (rule R50), so a list of commands can be
presented as samples: clocking them runs the commands. -/

namespace Sys2Proof

theorem opField_encode_upd8 (d : Byte) : opField (encode (.upd8 d)) = 2 := by
  ext j hj
  rw [← BitVec.getLsbD_eq_getElem, getLsbD_opField, getLsbD_encode_upd8,
    BitVec.getLsbD_of_ge d (32 + j) (by omega)]
  revert j
  decide

theorem byteField_encode_upd8 (d : Byte) : byteField (encode (.upd8 d)) = d := by
  ext j hj
  rw [← BitVec.getLsbD_eq_getElem, getLsbD_byteField, getLsbD_encode_upd8]
  simp [hj, show j ≠ 33 by omega]

theorem opField_encode_chk (e : Word) : opField (encode (.chk e)) = 3 := by
  ext j hj
  rw [← BitVec.getLsbD_eq_getElem, getLsbD_opField, getLsbD_encode_chk,
    BitVec.getLsbD_of_ge e (32 + j) (by omega)]
  revert j
  decide

theorem argField_encode_chk (e : Word) : argField (encode (.chk e)) = e := by
  ext j hj
  rw [← BitVec.getLsbD_eq_getElem, getLsbD_argField, getLsbD_encode_chk]
  simp [hj, show j ≠ 32 by omega, show j ≠ 33 by omega]

/-- The canonical word of a command decodes to the command (rule R50). -/
@[simp] theorem decode_encode (i : Instr) : decode (encode i) = i := by
  cases i with
  | nop => rfl
  | init => rfl
  | upd8 d => rw [decode_op2 (opField_encode_upd8 d), byteField_encode_upd8]
  | chk e => rw [decode_op3 (opField_encode_chk e), argField_encode_chk]

end Sys2Proof

namespace Sys2Proof.Machine

/-- Clocking a command's canonical sample has the command's effect (rule R56). -/
@[simp] theorem clocked_sampleOf (i : Instr) (r : Regs) : r.clocked (sampleOf i) = r.after i :=
  congrArg r.after (decode_encode i)

/-- Clocking the canonical samples of a command list runs the list (rule R56). -/
theorem clockedAll_sampleOf (cs : List Instr) (r : Regs) :
    r.clockedAll (cs.map sampleOf) = r.afterAll cs := by
  simp only [Regs.clockedAll, Regs.afterAll, List.foldl_map, clocked_sampleOf]

/-- A run of samples that begins with a reset or INIT completes from every state. -/
theorem runSamples_restarts {p : Sample} (hp : p.restarts = true) (ps : List Sample) (s : State) :
    runSamples (p :: ps) s = .next ⟨.defined (Regs.start.clockedAll ps), s.inputs⟩ := by
  rw [runSamples, clock_restarts hp]
  exact runSamples_defined ps _ _

end Sys2Proof.Machine
end

section
/-! The one-bit update is undone by `step1Inv` (rule R75), so some four bytes take the accumulator
from any value to any other. -/

namespace Sys2Proof.Machine

/-- The inverse update moves bit 31 to bit 0. -/
theorem getLsbD_step1Inv_zero (b : Word) : (step1Inv b).getLsbD 0 = b.getLsbD 31 := by
  cases h : b.getLsbD 31 <;> simp [-BitVec.getLsbD_eq_getElem, step1Inv, h]

/-- The bits above bit 0 of the inverse update. At `j = 31` both sides are 0: bit 31 of `POLY_R`
is set. -/
theorem getLsbD_step1Inv_succ (b : Word) {j : Nat} (hj : j < 32) :
    (step1Inv b).getLsbD (j + 1) = (b.getLsbD j ^^ (b.getLsbD 31 && Config.polyR.getLsbD j)) := by
  have top : Config.polyR.getLsbD 31 = true := by decide
  obtain rfl | hlt : j = 31 ∨ j + 1 < 32 := by omega
  · rw [BitVec.getLsbD_of_ge _ _ (le_refl 32), top, Bool.and_true, Bool.xor_self]
  · cases h : b.getLsbD 31 <;> simp [-BitVec.getLsbD_eq_getElem, step1Inv, h, hlt]

/-- `step1Inv` is a right inverse of the one-bit update (rule R75). -/
theorem step1_step1Inv (b : Word) : step1 (step1Inv b) = b := by
  ext j hj
  rw [← BitVec.getLsbD_eq_getElem, ← BitVec.getLsbD_eq_getElem, getLsbD_step1,
    getLsbD_step1Inv_succ b hj, getLsbD_step1Inv_zero, Bool.xor_assoc, Bool.xor_self, Bool.xor_false]

/-- Every register value is the result of any number of updates (rule R75). -/
theorem step1N_surjective (k : Nat) : Function.Surjective (step1N k) := by
  induction k with
  | zero => exact Function.surjective_id
  | succ k ih => exact ih.comp (Function.RightInverse.surjective step1_step1Inv)

/-- The lowest `n` bytes of a word, least significant first. -/
def lowBytes : Nat → Word → List Byte
  | 0, _ => []
  | n + 1, w => w.extractLsb' 0 8 :: lowBytes n (w >>> 8)

/-- Absorbing the low bytes of `w` takes a difference `w` out of the register byte by byte: what is
left of it is `w` shifted past those bytes. -/
theorem absorb_xor_lowBytes (n : Nat) (x w : Word) :
    absorb (x ^^^ w) (lowBytes n w) = step1N (8 * n) x ^^^ (w >>> (8 * n)) := by
  induction n generalizing x w with
  | zero => rw [lowBytes, absorb_nil, Nat.mul_zero, step1N_zero, BitVec.ushiftRight_zero]
  | succ n ih =>
    have byte : step8 Config.impl (x ^^^ w) (w.extractLsb' 0 8) = step1N 8 x ^^^ (w >>> 8) := by
      rw [step8_impl, BitVec.xor_assoc, step1N_xor, step1N_eight_xor_low_byte]
    rw [lowBytes, absorb_cons, byte, ih, ← step1N_add, ← BitVec.shiftRight_add, Nat.mul_succ,
      Nat.add_comm]

/-- Some byte string takes the register from any value to any other (rule R75). -/
theorem exists_absorb_eq (a b : Word) : ∃ m, absorb a m = b := by
  obtain ⟨x, hx⟩ := step1N_surjective 32 b
  have difference : x ^^^ (x ^^^ a) = a := by
    rw [← BitVec.xor_assoc, BitVec.xor_self, BitVec.zero_xor]
  refine ⟨lowBytes 4 (x ^^^ a), ?_⟩
  calc absorb a (lowBytes 4 (x ^^^ a))
      = absorb (x ^^^ (x ^^^ a)) (lowBytes 4 (x ^^^ a)) := by rw [difference]
    _ = step1N 32 x ^^^ ((x ^^^ a) >>> 32) := absorb_xor_lowBytes 4 x (x ^^^ a)
    _ = b := by rw [BitVec.ushiftRight_eq_zero (le_refl 32), BitVec.xor_zero, hx]

end Sys2Proof.Machine
end

section
/-! The reachable register contents (rule R27). -/

namespace Sys2Proof.Machine

theorem flagsAgree_iff (r : Regs) : r.flagsAgree = true ↔ (r.mm = true → r.ck = true) := by
  rw [Regs.flagsAgree, Bool.or_eq_true, Bool.not_eq_true', ← Bool.not_eq_true, imp_iff_not_or]

@[simp] theorem start_flagsAgree : Regs.start.flagsAgree = true := rfl

/-- Every command keeps the invariant of rule R27. -/
theorem after_flagsAgree (i : Instr) {r : Regs} (h : r.flagsAgree = true) :
    (r.after i).flagsAgree = true := by
  cases i with
  | nop => exact h
  | init => exact start_flagsAgree
  | upd8 d => exact h
  | chk e => exact (flagsAgree_iff _).mpr fun _ => recordCheck_ck e r

/-- Every clocked sample keeps the invariant of rule R27. -/
theorem clocked_flagsAgree (p : Sample) {r : Regs} (h : r.flagsAgree = true) :
    (r.clocked p).flagsAgree = true := by
  unfold Regs.clocked
  split
  · exact start_flagsAgree
  · exact after_flagsAgree _ h

/-- Every list of samples keeps the invariant of rule R27. -/
theorem clockedAll_flagsAgree (ps : List Sample) {r : Regs} (h : r.flagsAgree = true) :
    (r.clockedAll ps).flagsAgree = true := by
  induction ps generalizing r with
  | nil => exact h
  | cons p ps ih => exact ih (clocked_flagsAgree p h)

/-- The complement changes every value. -/
theorem finalize_ne (a : Word) : finalize a ≠ a := fun h => by
  have := congrArg (BitVec.getLsbD · 0) h
  simp [finalize, Config.xorOut] at this

/-- From cleared flags, at most one CHK sets any pair of flags that agree: `ACC` is never equal to
its complement, so the operand `ACC` sets `MM` and its complement keeps it clear. -/
theorem exists_checks (r : Regs) (h : r.flagsAgree = true) :
    ∃ cs, Regs.afterAll cs ⟨r.acc, false, false⟩ = r := by
  obtain ⟨a, mm, ck⟩ := r
  cases ck with
  | false =>
    cases mm with
    | false => exact ⟨[], rfl⟩
    | true => cases h
  | true =>
    cases mm with
    | false =>
      have equal : (finalize a != finalize a) = false := bne_self_eq_false _
      exact ⟨[.chk (finalize a)], congrArg (Regs.mk a · true) equal⟩
    | true =>
      have differ : (finalize a != a) = true := bne_iff_ne.mpr (finalize_ne a)
      exact ⟨[.chk a], congrArg (Regs.mk a · true) differ⟩

/-- Commands reach every register content whose flags agree: bytes set `ACC`, a CHK the flags. -/
theorem exists_afterAll_start_eq (r : Regs) (h : r.flagsAgree = true) :
    ∃ cs, Regs.start.afterAll cs = r := by
  obtain ⟨m, hm⟩ := exists_absorb_eq Regs.start.acc r.acc
  obtain ⟨cs, hcs⟩ := exists_checks r h
  refine ⟨m.map .upd8 ++ cs, ?_⟩
  rw [afterAll_append, afterAll_upd8, hm]
  exact hcs

/-- Settles O25: every sample keeps the invariant; four bytes and at most one CHK reach every
content that has it. -/
theorem reachableExactlyWhenFlagsAgree : Obligations.ReachableExactlyWhenFlagsAgree := by
  intro s p r hp
  simp only [runSamples_restarts hp, ← flagsAgree_iff]
  constructor
  · rintro ⟨ps, h⟩
    cases h
    exact clockedAll_flagsAgree ps start_flagsAgree
  · intro h
    obtain ⟨cs, rfl⟩ := exists_afterAll_start_eq r h
    exact ⟨cs.map sampleOf, by rw [clockedAll_sampleOf]⟩

end Sys2Proof.Machine
end

section
/-! The step function case by case, reset, power-on and the verdict (rules R22, R24 to R26). -/

namespace Sys2Proof.Machine

/-- The effect of a command word on the registers, by its opcode field (rule R22). -/
theorem after_decode (w : CmdWord) (r : Regs) :
    r.after (decode w) =
      if opField w = 0 then r
      else if opField w = 1 then Regs.start
      else if opField w = 2 then absorbByte Config.impl (byteField w) r
      else recordCheck (argField w) r := by
  unfold decode
  split_ifs <;> rfl

/-- Settles O9: on a defined state a sample loads the start values or has its command's effect. -/
theorem stepFunctionCases : Obligations.StepFunctionCases := by
  intro r ps rst cmd
  rw [clock_defined, Regs.clocked, after_decode]
  rfl

/-- The CRC of the empty message (rules R24, R60). -/
theorem finalize_start : finalize Regs.start.acc = 0 := by decide

/-- Settles O11: a reset step and INIT are both `startMessage`. -/
theorem resetValues : Obligations.ResetValues :=
  ⟨fun s w => ⟨startMessage s, clock_restarts (p := ⟨true, w⟩) rfl s, startMessage_block s,
    congrArg some finalize_start, rfl, rfl, exec_init s⟩, rfl⟩

/-- Settles O18: reset and INIT start a message from any state; the two commands that read the
elements go through `onDefined`, which faults here. -/
theorem powerOnHasNoValues : Obligations.PowerOnHasNoValues := fun ps =>
  ⟨rfl, exec_init _, fun w => clock_restarts (p := ⟨true, w⟩) rfl _,
    fun d => onDefined_powerOn ps (absorbByte Config.impl d),
    fun e => onDefined_powerOn ps (recordCheck e), rfl, rfl, rfl⟩

theorem verdict_eq_pass_iff (mm ck : Bool) : verdict mm ck = .pass ↔ ck = true ∧ mm = false := by
  revert mm ck
  decide

/-- The host's acceptance in terms of the flags (rules R26, R107). -/
theorem accepts_defined_iff (r : Regs) (ps : List Sample) :
    State.accepts ⟨.defined r, ps⟩ = true ↔ r.ck = true ∧ r.mm = false := by
  simp [State.accepts]

/-- Settles O27: acceptance and the verdict PASS are the same condition on the flags. -/
theorem verdictOfFlags : Obligations.VerdictOfFlags := by
  intro r ps
  simp only [verdict_defined, Option.some_inj]
  refine ⟨fun hck => ?_, fun hck hmm => (verdict_eq_pass_iff _ _).mpr ⟨hck, hmm⟩,
    fun hck hmm => ?_, (accepts_defined_iff r ps).trans (verdict_eq_pass_iff _ _).symm⟩
  · rw [hck]; rfl
  · rw [hck, hmm]; rfl

end Sys2Proof.Machine
end

section
/-! The big-endian layout of a 32-bit value and its reading are inverse (rules R32, R33). -/

namespace Sys2Proof.Machine

@[simp] theorem extractLsb'_0_fromBe32 (c0 c1 c2 c3 : Byte) :
    (fromBe32 c0 c1 c2 c3).extractLsb' 0 8 = c3 :=
  BitVec.extractLsb'_append_eq_right

@[simp] theorem extractLsb'_8_fromBe32 (c0 c1 c2 c3 : Byte) :
    (fromBe32 c0 c1 c2 c3).extractLsb' 8 8 = c2 :=
  calc (fromBe32 c0 c1 c2 c3).extractLsb' 8 8
    _ = (c0 ++ c1 ++ c2).extractLsb' 0 8 := BitVec.extractLsb'_append_eq_of_le (by decide)
    _ = c2 := BitVec.extractLsb'_append_eq_right

@[simp] theorem extractLsb'_16_fromBe32 (c0 c1 c2 c3 : Byte) :
    (fromBe32 c0 c1 c2 c3).extractLsb' 16 8 = c1 :=
  calc (fromBe32 c0 c1 c2 c3).extractLsb' 16 8
    _ = (c0 ++ c1 ++ c2).extractLsb' 8 8 := BitVec.extractLsb'_append_eq_of_le (by decide)
    _ = (c0 ++ c1).extractLsb' 0 8 := BitVec.extractLsb'_append_eq_of_le (by decide)
    _ = c1 := BitVec.extractLsb'_append_eq_right

@[simp] theorem extractLsb'_24_fromBe32 (c0 c1 c2 c3 : Byte) :
    (fromBe32 c0 c1 c2 c3).extractLsb' 24 8 = c0 :=
  calc (fromBe32 c0 c1 c2 c3).extractLsb' 24 8
    _ = (c0 ++ c1 ++ c2).extractLsb' 16 8 := BitVec.extractLsb'_append_eq_of_le (by decide)
    _ = (c0 ++ c1).extractLsb' 8 8 := BitVec.extractLsb'_append_eq_of_le (by decide)
    _ = c0 := BitVec.extractLsb'_append_eq_left

/-- Laying out what was read gives the bytes back (rule R33). -/
@[simp] theorem be32_fromBe32 (c0 c1 c2 c3 : Byte) :
    be32 (fromBe32 c0 c1 c2 c3) = [c0, c1, c2, c3] := by
  simp [be32]

/-- Reading the bytes of a value gives the value back: adjacent slices join (rule R33). -/
theorem fromBe32_extractLsb' (v : Word) :
    fromBe32 (v.extractLsb' 24 8) (v.extractLsb' 16 8) (v.extractLsb' 8 8) (v.extractLsb' 0 8) =
      v := by
  have join3 : v.extractLsb' 24 8 ++ v.extractLsb' 16 8 = v.extractLsb' 16 16 :=
    BitVec.extractLsb'_append_extractLsb'_eq_extractLsb' rfl
  have join2 : v.extractLsb' 16 16 ++ v.extractLsb' 8 8 = v.extractLsb' 8 24 :=
    BitVec.extractLsb'_append_extractLsb'_eq_extractLsb' rfl
  have join1 : v.extractLsb' 8 24 ++ v.extractLsb' 0 8 = v.extractLsb' 0 32 :=
    BitVec.extractLsb'_append_extractLsb'_eq_extractLsb' rfl
  rw [fromBe32, join3, join2, join1, BitVec.extractLsb'_eq_self]

/-- Four bytes are the layout of a value exactly when they read as it (rules R32, R33). -/
theorem be32_eq_iff {v : Word} {c0 c1 c2 c3 : Byte} :
    be32 v = [c0, c1, c2, c3] ↔ fromBe32 c0 c1 c2 c3 = v := by
  constructor
  · intro h
    cases h
    exact fromBe32_extractLsb' v
  · rintro rfl
    exact be32_fromBe32 c0 c1 c2 c3

/-- Settles O46: slicing four joined bytes gives each byte, joining four adjacent slices the value. -/
theorem bigEndianRoundTrip : Obligations.BigEndianRoundTrip :=
  ⟨fun _ => rfl,
    fun c0 c1 c2 c3 => ⟨extractLsb'_24_fromBe32 .., extractLsb'_16_fromBe32 ..,
      extractLsb'_8_fromBe32 .., extractLsb'_0_fromBe32 .., be32_fromBe32 c0 c1 c2 c3⟩,
    fun _ _ _ _ _ => be32_eq_iff.mp, by decide⟩

end Sys2Proof.Machine
end

section
/-! A command word is its opcode before its argument: when an encoded command is a given word, the
words the ignored bits do not tell apart, and the canonical words as sums (rules R46, R49, R50). -/

namespace Sys2Proof

/-- A word is its opcode before its argument (rule R44). -/
theorem opField_append_argField (w : CmdWord) : opField w ++ argField w = w :=
  BitVec.extractLsb'_append_extractLsb' (w := 2) (len := 32)

/-- The low byte of the argument is the operand of UPD8 (rule R44). -/
theorem extractLsb'_8_24_append_byteField (w : CmdWord) :
    w.extractLsb' 8 24 ++ byteField w = argField w :=
  BitVec.extractLsb'_append_extractLsb'_eq_extractLsb' rfl

/-- An argument behind the opcode of `w` makes up `w` exactly when it is the argument of `w`. -/
theorem append_eq_iff_argField {w : CmdWord} {op : BitVec 2} (h : opField w = op) (arg : Word) :
    op ++ arg = w ↔ argField w = arg :=
  calc op ++ arg = w
    _ ↔ op ++ arg = op ++ argField w := by rw [← h, opField_append_argField]
    _ ↔ argField w = arg := (BitVec.append_right_inj op).trans eq_comm

/-- The zeros between the opcode and the byte belong to the argument (rule R46). -/
theorem encode_upd8_eq_append (d : Byte) : encode (.upd8 d) = (2 : BitVec 2) ++ (0#24 ++ d) :=
  BitVec.append_assoc

/-- Encoding a decoded word gives the word back exactly when its ignored bits are 0 (rule R50). -/
theorem encode_decode_eq_iff (w : CmdWord) : encode (decode w) = w ↔ isCanonical w = true := by
  unfold isCanonical
  obtain h | h | h | h := opField_cases w
  · rw [decode_op0 h, h]
    exact (append_eq_iff_argField h 0).trans beq_iff_eq.symm
  · rw [decode_op1 h, h]
    exact (append_eq_iff_argField h 0).trans beq_iff_eq.symm
  · rw [decode_op2 h, h, encode_upd8_eq_append, append_eq_iff_argField h,
      ← extractLsb'_8_24_append_byteField, BitVec.append_left_inj]
    exact beq_iff_eq.symm
  · rw [decode_op3 h, h]
    exact iff_of_true ((append_eq_iff_argField h _).mpr rfl) rfl

/-- Settles O1: the decoder goes by the opcode field, `encode` fills each field with what the
decoder reads, and the ignored bits are the only ones lost. -/
theorem decodeEncodeAgree : Obligations.DecodeEncodeAgree :=
  ⟨fun _ => ⟨decode_op0, decode_op1, decode_op2, decode_op3⟩, decode_encode, encode_decode_eq_iff⟩

/-- The encoder leaves the ignored bits 0 (rule R46). -/
theorem isCanonical_encode (i : Instr) : isCanonical (encode i) = true :=
  (encode_decode_eq_iff _).mp (congrArg encode (decode_encode i))

/-- The decoder reads the opcode and the bits that opcode uses, no others (rule R49). -/
theorem decode_eq_of_used_bits {w v : CmdWord} (hop : opField w = opField v)
    (hbyte : opField w = 2 → byteField w = byteField v)
    (harg : opField w = 3 → argField w = argField v) : decode w = decode v := by
  obtain h | h | h | h := opField_cases w
  · rw [decode_op0 h, decode_op0 (hop ▸ h)]
  · rw [decode_op1 h, decode_op1 (hop ▸ h)]
  · rw [decode_op2 h, decode_op2 (hop ▸ h), hbyte h]
  · rw [decode_op3 h, decode_op3 (hop ▸ h), harg h]

/-- The canonical word of UPD8 as a sum (rule R46). -/
theorem encode_upd8_eq_add (d : Byte) : encode (.upd8 d) = 0x200000000 + d.setWidth 34 :=
  calc encode (.upd8 d)
    _ = (0b10#2 ++ 0#24) ++ 0#8 + (0#26 ++ d) := BitVec.append_zero_add_zero_append.symm
    _ = 0x200000000 + d.setWidth 34 :=
      congrArg (0x200000000 + ·) (BitVec.setWidth_eq_append (by decide)).symm

/-- The canonical word of CHK as a sum (rule R46). -/
theorem encode_chk_eq_add (e : Word) : encode (.chk e) = 0x300000000 + e.setWidth 34 :=
  calc encode (.chk e)
    _ = 0b11#2 ++ 0#32 + (0#2 ++ e) := BitVec.append_zero_add_zero_append.symm
    _ = 0x300000000 + e.setWidth 34 :=
      congrArg (0x300000000 + ·) (BitVec.setWidth_eq_append (by decide)).symm

/-- Settles O2: putting an operand behind zeros is adding it. -/
theorem canonicalWordsAsListed : Obligations.CanonicalWordsAsListed :=
  ⟨rfl, rfl, encode_upd8_eq_add, encode_chk_eq_add, by decide, by decide⟩

end Sys2Proof

namespace Sys2Proof.Machine

/-- The machine sees of a command word only what it decodes to (rule R22). -/
theorem clock_eq_of_decode_eq {w v : CmdWord} (h : decode w = decode v) (rst : Bool) (s : State) :
    clock ⟨rst, w⟩ s = clock ⟨rst, v⟩ s := by
  simp only [clock, h]

/-- When `crc_out` is one of two operands, a CHK of the other leaves a different `MM` (rule R83). -/
theorem recordCheck_ne {e f : Word} (h : e ≠ f) :
    recordCheck e ⟨finalize e, false, false⟩ ≠ recordCheck f ⟨finalize e, false, false⟩ := by
  intro heq
  have hmm := congrArg Regs.mm heq
  simp [h] at hmm

/-- CHK uses all of its argument: some state tells two of them apart (rule R49). -/
theorem exists_clock_chk_ne {e f : Word} (h : e ≠ f) :
    ∃ s, clock ⟨false, encode (.chk e)⟩ s ≠ clock ⟨false, encode (.chk f)⟩ s := by
  refine ⟨⟨.defined ⟨finalize e, false, false⟩, []⟩, fun heq => recordCheck_ne h ?_⟩
  simpa [Regs.clocked, Regs.after] using heq

/-- Settles O3: a step reads the word only through the decoder; two arguments of CHK are told apart
where `crc_out` is the first. -/
theorem ignoredBitsHaveNoEffect : Obligations.IgnoredBitsHaveNoEffect := by
  refine ⟨fun w v rst s hop hbyte harg => ?_, fun _ _ => exists_clock_chk_ne, isCanonical_encode⟩
  have hdecode := decode_eq_of_used_bits hop hbyte harg
  exact ⟨hdecode, clock_eq_of_decode_eq hdecode rst s⟩

end Sys2Proof.Machine
end

section
/-! The control commands: a clocked sample runs what its word decodes to, NOP anywhere in a list has
no effect, and what runs before an INIT is dead (rules R59 to R61). -/

namespace Sys2Proof

/-- INIT is the row of opcode 1, with any argument (rules R45, R49). -/
theorem decode_eq_init_iff (w : CmdWord) : decode w = .init ↔ opField w = 1 := by
  refine ⟨fun hdecode => ?_, decode_op1⟩
  obtain h | h | h | h := opField_cases w
  · cases (decode_op0 h).symm.trans hdecode
  · exact h
  · cases (decode_op2 h).symm.trans hdecode
  · cases (decode_op3 h).symm.trans hdecode

end Sys2Proof

namespace Sys2Proof.Machine

/-- With `rst = 0` a sample runs the command its word decodes to (rule R22). -/
theorem clock_eq_exec {w : CmdWord} {i : Instr} (h : decode w = i) (s : State) :
    clock ⟨false, w⟩ s = exec i s :=
  congrArg (exec · s) h

/-- A sample restarts when it is a reset or its word decodes to INIT (rules R24, R60). -/
theorem restarts_iff (p : Sample) : p.restarts = true ↔ p.rst = true ∨ decode p.cmd = .init := by
  rw [Sample.restarts, Bool.or_eq_true, beq_iff_eq, decode_eq_init_iff]

@[simp] theorem exec_nop (s : State) : exec .nop s = .next s := rfl

/-- A command that answers a next state hands it to the rest of the list (rule R56). -/
theorem run_cons_of_exec {c : Instr} {s t : State} (h : exec c s = .next t) (cs : List Instr) :
    run (c :: cs) s = run cs t := by
  rw [run, h]

/-- A NOP anywhere in a list does not change its run, from any state (rule R61 (a)). -/
theorem run_append_nop (cs ds : List Instr) (s : State) :
    run (cs ++ .nop :: ds) s = run (cs ++ ds) s := by
  have hnop : run (.nop :: ds) = run ds := funext fun t => run_cons_of_exec (exec_nop t) ds
  rw [run_append, run_append, hnop]

/-- Nothing of the block's state before an INIT reaches what follows it (rule R61 (e)). -/
theorem run_init_congr {s t : State} (h : s.inputs = t.inputs) (cs : List Instr) :
    run (.init :: cs) s = run (.init :: cs) t := by
  rw [run_init, run_init, h]

/-- Equivalence as equality of runs, register content by register content (rule R56). -/
theorem equivalent_iff (cs ds : List Instr) : Equivalent cs ds ↔
    ∀ (r : Regs) (ps : List Sample), run cs ⟨.defined r, ps⟩ = run ds ⟨.defined r, ps⟩ := by
  refine ⟨fun h r ps => h _ rfl, fun h s hs => ?_⟩
  obtain ⟨r, hr⟩ := (isDefined_iff s).mp hs
  rw [hr]
  exact h r s.inputs

/-- Everything before an INIT is dead (rule R61 (b)). -/
theorem equivalent_append_init (cs : List Instr) : Equivalent (cs ++ [.init]) [.init] := by
  refine (equivalent_iff _ _).mpr fun r ps => ?_
  rw [run_append, run_defined]
  exact run_init_congr rfl []

/-- Settles O29: NOP hands its state on, and INIT forgets the block's. -/
theorem controlLaws : Obligations.ControlLaws :=
  ⟨fun cs ds s _ => run_append_nop cs ds s, equivalent_append_init,
    equivalent_append_init [.init], fun s w => (clock_restarts (p := ⟨true, w⟩) rfl s).symm,
    fun cs _ _ h => run_init_congr h cs⟩

/-- Settles O14: NOP hands its state on, and so between two commands it has no effect. -/
theorem nopChangesNothing : Obligations.NopChangesNothing :=
  ⟨exec_nop, fun _ s h => clock_eq_exec (decode_op0 h) s, rfl,
    fun a b s => run_append_nop [.upd8 a] [.upd8 b] s, by decide⟩

/-- Settles O15: INIT builds its state from the start values and the waiting samples alone. -/
theorem initStartsMessage : Obligations.InitStartsMessage := by
  refine ⟨exec_init, fun _ s h => clock_eq_exec (decode_op1 h) s, rfl, fun s t h => ?_,
    finalize_start, fun s t h => ?_⟩
  · cases h
    exact congrArg some finalize_start
  · rw [exec_init, exec_init, h]

end Sys2Proof.Machine
end

section
/-! Running commands as samples, and what the observation tells of a state (rule R56). -/

namespace Sys2Proof.Machine

/-- Presenting a command in its canonical word runs the command (rule R56). -/
@[simp] theorem clock_sampleOf (i : Instr) (s : State) : clock (sampleOf i) s = exec i s :=
  clock_eq_exec (decode_encode i) s

/-- Running a command list is running its canonical samples, from any state (rule R56). -/
theorem runSamples_map_sampleOf (cs : List Instr) (s : State) :
    runSamples (cs.map sampleOf) s = run cs s := by
  induction cs generalizing s with
  | nil => rfl
  | cons c cs ih =>
    rw [List.map_cons, runSamples, run, clock_sampleOf]
    cases exec c s with
    | next t => exact ih t
    | fault f => rfl
    | refused r => rfl

theorem finalize_injective : Function.Injective finalize :=
  Function.LeftInverse.injective finalize_finalize

/-- The outputs determine the registers: the complement of `ACC` is undone, the flags are plain
(rule R56). -/
theorem outputs_injective : Function.Injective Regs.outputs := by
  rintro ⟨a, m, k⟩ ⟨a', m', k'⟩ h
  obtain ⟨hacc, hmm, hck⟩ := Obs.mk.inj h
  rw [Regs.mk.injEq]
  exact ⟨finalize_injective hacc, hmm, hck⟩

/-- The observation is injective on defined states (rule R56). -/
theorem obs_defined_inj (q r : Regs) (ps : List Sample) :
    State.obs ⟨.defined q, ps⟩ = State.obs ⟨.defined r, ps⟩ ↔ q = r :=
  Option.some_inj.trans outputs_injective.eq_iff

/-- Settles O13: decoding undoes encoding, command by command along a list; the outputs determine
the registers. -/
theorem runAndObservation : Obligations.RunAndObservation :=
  ⟨fun i s => (clock_sampleOf i s).symm, fun _ => rfl, fun _ cs _ _ h => run_cons_of_exec h cs,
    runSamples_map_sampleOf, obs_defined, obs_defined_inj, equivalent_iff⟩

end Sys2Proof.Machine
end

section
/-! What a clocked sample can do to `ACC` (rule R62). -/

namespace Sys2Proof.Machine

/-- What a command leaves in `ACC` (rule R14). -/
theorem after_acc_cases (i : Instr) (r : Regs) :
    (r.after i).acc = r.acc ∨ (i = .init ∧ (r.after i).acc = 0xFFFFFFFF) ∨
      ∃ d, i = .upd8 d ∧ (r.after i).acc = step8Bitwise r.acc d := by
  cases i with
  | nop => exact .inl rfl
  | init => exact .inr (.inl ⟨rfl, start_acc⟩)
  | upd8 d => exact .inr (.inr ⟨d, rfl, step8_eq_step8Bitwise Config.impl r.acc d⟩)
  | chk e => exact .inl (recordCheck_acc e r)

/-- What a clocked sample leaves in `ACC` (rule R62). -/
theorem clocked_acc_cases (p : Sample) (r : Regs) :
    (r.clocked p).acc = r.acc ∨ (p.restarts = true ∧ (r.clocked p).acc = 0xFFFFFFFF) ∨
      ∃ d, p.rst = false ∧ decode p.cmd = .upd8 d ∧ (r.clocked p).acc = step8Bitwise r.acc d := by
  rw [restarts_iff, Regs.clocked]
  split
  · next hrst => exact .inr (.inl ⟨.inl hrst, start_acc⟩)
  · next hrst =>
    obtain hacc | ⟨hinit, hacc⟩ | ⟨d, hupd, hacc⟩ := after_acc_cases (decode p.cmd) r
    · exact .inl hacc
    · exact .inr (.inl ⟨.inr hinit, hacc⟩)
    · exact .inr (.inr ⟨d, Bool.eq_false_iff.mpr hrst, hupd, hacc⟩)

/-- Only a reset or INIT defines the block from power-on (rule R25). -/
theorem restarts_of_clock_powerOn {p : Sample} {s t : State} {r : Regs} (h : clock p s = .next t)
    (hs : s.block = .powerOn) (ht : t.block = .defined r) : p.restarts = true := by
  rw [restarts_iff]
  obtain ⟨hrst, _⟩ | ⟨_, hexec⟩ := clock_cases p s
  · exact .inl hrst
  · obtain ⟨_, rfl⟩ | ⟨hinit, _⟩ | ⟨q, hq, _⟩ := exec_next_cases (hexec.symm.trans h)
    · cases hs.symm.trans ht
    · exact .inr hinit
    · cases hs.symm.trans hq

/-- Settles O22: the cases of a clocked sample; from power-on it can only be a start. -/
theorem noSampleLoadsAcc : Obligations.NoSampleLoadsAcc := by
  constructor
  · rintro p ⟨_, ps⟩ t q r h rfl ht
    rw [clock_defined] at h
    cases h
    cases ht
    exact clocked_acc_cases p q
  · intro p s t r h hs ht
    have hp := restarts_of_clock_powerOn h hs ht
    rw [clock_restarts hp] at h
    cases h
    cases ht
    exact ⟨hp, start_acc⟩

end Sys2Proof.Machine
end

section
/-! The one-bit update in its two forms, its linearity, and the bit-serial form of the byte update
(rules R65, R66, R68). -/

namespace Sys2Proof.Machine

/-- The mask form of the one-bit update (rule R65). -/
theorem step1_eq_xor_and_mask (a : Word) :
    step1 a = (a >>> 1) ^^^
      (0xEDB88320 &&& (if a.getLsbD 0 = true then BitVec.allOnes 32 else 0)) := by
  rw [step1]
  split
  · rw [BitVec.and_allOnes, Config.polyR]
  · exact BitVec.xor_zero.symm.trans (congrArg (a >>> 1 ^^^ ·) BitVec.and_zero.symm)

/-- Settles O31: the mask keeps all of the constant or nothing of it. -/
theorem bitUpdateForms : Obligations.BitUpdateForms :=
  ⟨fun _ => rfl, step1_eq_xor_and_mask, by decide⟩

/-- Settles O32: each bit of the update is an exclusive or of bits of the register, and a clear low
bit adds nothing to the shift. -/
theorem bitUpdateLinear : Obligations.BitUpdateLinear :=
  ⟨step1_xor, step1N_xor, fun _ _ _ => step1N_of_low_bits_zero⟩

/-- A bit as a register value: bit 0 set or nothing (rule R66). -/
def lowBit (b : Bool) : Word := if b then 1 else 0

theorem getLsbD_lowBit (b : Bool) (j : Nat) : (lowBit b).getLsbD j = (decide (j = 0) && b) := by
  cases b <;> simp [lowBit, BitVec.getLsbD_one]

/-- Only bit 0 of what enters the register acts on the update; the rest is shifted (rule R68). -/
theorem step1_xor_eq_step1_lowBit_xor (a v : Word) :
    step1 (a ^^^ v) = step1 (a ^^^ lowBit (v.getLsbD 0)) ^^^ (v >>> 1) := by
  have clear : (lowBit (v.getLsbD 0) ^^^ v).getLsbD 0 = false := by
    rw [BitVec.getLsbD_xor, getLsbD_lowBit, decide_eq_true rfl, Bool.true_and, Bool.xor_self]
  have above : (lowBit (v.getLsbD 0) ^^^ v) >>> 1 = v >>> 1 := by
    ext j
    simp [getLsbD_lowBit, ← BitVec.getLsbD_eq_getElem]
  rw [← above, ← step1_of_low_bit_zero clear, ← step1_xor, BitVec.xor_assoc,
    ← BitVec.xor_assoc _ _ v, BitVec.xor_self, BitVec.zero_xor]

/-- Feeding the bits of a byte from bit `i` on, once none is left above them, is that many updates
with those bits entered at once (rule R66). -/
theorem feedBits_range' (d : Byte) (n i : Nat) (a : Word) (h : 8 ≤ i + n) :
    feedBits d (List.range' i n) a = step1N n (a ^^^ (zext32 d >>> i)) := by
  induction n generalizing i a with
  | zero =>
    have none_left : zext32 d >>> i = 0 := by
      ext j
      simp [← BitVec.getLsbD_eq_getElem, getLsbD_zext32, BitVec.getLsbD_of_ge d (i + j) (by omega)]
    rw [none_left]
    exact BitVec.xor_zero.symm
  | succ n ih =>
    have bit : (zext32 d >>> i).getLsbD 0 = d.getLsbD i := by
      rw [BitVec.getLsbD_ushiftRight, getLsbD_zext32, Nat.add_zero]
    rw [List.range'_succ, feedBits, ih (i + 1) _ (by omega), step1N_succ,
      step1_xor_eq_step1_lowBit_xor a (zext32 d >>> i), bit, ← BitVec.shiftRight_add, lowBit]

/-- Settles O33: the bits of a byte not yet fed can wait in the register, since the update only
shifts them. -/
theorem bytesEnterLowBitFirst : Obligations.BytesEnterLowBitFirst := fun a d =>
  ⟨rfl, (feedBits_range' d 8 0 a le_rfl).symm⟩

end Sys2Proof.Machine
end

section
/-! UPD8 and byte strings: what absorbing a byte does to the state, messages in pieces, and the CRC
of a whole message (rules R71, R73, R76, R77). -/

namespace Sys2Proof.Machine

theorem zext32_xor (d e : Byte) : zext32 (d ^^^ e) = zext32 d ^^^ zext32 e := BitVec.setWidth_xor ..

/-- UPD8 absorbs its byte, in either form of the update (rules R8, R71). -/
theorem exec_upd8_eq_onDefined (x : Config.Impl) (s : State) (d : Byte) :
    exec (.upd8 d) s = onDefined s (absorbByte x d) :=
  congrArg (onDefined s) (absorbByte_impl_irrelevant Config.impl x d)

/-- UPD8 from a defined state (rule R71). -/
theorem exec_upd8_of_defined {s : State} {r : Regs} (h : s.block = .defined r) (x : Config.Impl)
    (d : Byte) :
    exec (.upd8 d) s = .next { s with block := .defined { r with acc := step8 x r.acc d } } := by
  obtain ⟨_, ps⟩ := s
  cases h
  exact exec_upd8_eq_onDefined x _ d

/-- UPD8 from the power-on state (rules R25, R71 (g)). -/
theorem exec_upd8_of_powerOn {s : State} (h : s.block = .powerOn) (d : Byte) :
    exec (.upd8 d) s = .fault .powerOnRead := by
  obtain ⟨_, ps⟩ := s
  cases h
  exact onDefined_powerOn ps (absorbByte Config.impl d)

/-- Feeding a byte string to a defined state (rules R53, R72). -/
theorem run_map_upd8 (m : List Byte) (r : Regs) (ps : List Sample) :
    run (m.map .upd8) ⟨.defined r, ps⟩ = .next ⟨.defined ⟨absorb r.acc m, r.mm, r.ck⟩, ps⟩ := by
  rw [run_defined, afterAll_upd8]

/-- The update sees the register's low byte and the message byte only through their exclusive or
(rule R71 (d)). -/
theorem step8Bitwise_xor_both (a : Word) (d e : Byte) :
    step8Bitwise (a ^^^ zext32 e) (d ^^^ e) = step8Bitwise a d := by
  rw [step8Bitwise, step8Bitwise, zext32_xor, BitVec.xor_assoc, BitVec.xor_comm (zext32 d),
    ← BitVec.xor_assoc (zext32 e), BitVec.xor_self, BitVec.zero_xor]

/-- Absorbing a byte twice is not absorbing it once (rule R71 (f)). -/
theorem run_upd8_twice_ne_once :
    run [.upd8 0x52, .upd8 0x52] State.reset ≠ run [.upd8 0x52] State.reset := by
  have acc_ne : absorb Regs.start.acc [0x52, 0x52] ≠ absorb Regs.start.acc [0x52] := by
    decide +kernel
  intro h
  have hnext := (run_map_upd8 [0x52, 0x52] Regs.start []).symm.trans
    (h.trans (run_map_upd8 [0x52] Regs.start []))
  obtain ⟨hblock, _⟩ := State.mk.inj (Host.Outcome.next.inj hnext)
  obtain ⟨hacc, _⟩ := Regs.mk.inj (Block.defined.inj hblock)
  exact acc_ne hacc

/-- Settles O16: UPD8 goes through `onDefined` with either form of the update, and the corner cases
are the update's linearity. -/
theorem upd8AbsorbsByte : Obligations.Upd8AbsorbsByte :=
  ⟨fun _ _ d h => ⟨exec_upd8_of_defined h .bitwise d, exec_upd8_of_defined h .lut d⟩,
    encode_upd8_eq_add, fun _ => decode_op2, step1N_eight_xor_low_byte, by decide,
    fun d => congrArg (step1N 8) (BitVec.zero_xor), step8Bitwise_xor_both,
    ⟨State.reset, 0x52, run_upd8_twice_ne_once, rfl⟩, fun _ d h => exec_upd8_of_powerOn h d,
    by decide, by decide, by decide, by decide⟩

/-- Absorbing in pieces is absorbing the whole (rule R76). -/
theorem absorb_append (a : Word) (x y : List Byte) :
    absorb a (x ++ y) = absorb (absorb a x) y := by
  induction x generalizing a with
  | nil => rfl
  | cons b x ih => exact ih _

/-- Any number of NOPs within a list does not change its run (rule R61 (a)). -/
theorem run_append_replicate_nop (cs ds : List Instr) (n : Nat) (s : State) :
    run (cs ++ List.replicate n .nop ++ ds) s = run (cs ++ ds) s := by
  induction n with
  | zero => rw [List.replicate_zero, List.append_nil]
  | succ n ih =>
    rw [List.append_assoc, List.replicate_succ, List.cons_append, run_append_nop,
      ← List.append_assoc, ih]

/-- Settles O40: NOPs drop out of a run, and the commands of two pieces are those of the whole. -/
theorem streamingInPieces : Obligations.StreamingInPieces := by
  refine ⟨fun a x y => (absorb_append a x y).symm, fun x y n s => ?_⟩
  rw [run_append_replicate_nop, List.map_append]

/-- A list of UPD8 and NOP absorbs its bytes and keeps the flags (rule R73). -/
theorem afterAll_upd8_nop {cs : List Instr} (h : ∀ c ∈ cs, c = .nop ∨ ∃ d, c = .upd8 d) (r : Regs) :
    r.afterAll cs = ⟨absorb r.acc (bytesOf cs), r.mm, r.ck⟩ := by
  induction cs generalizing r with
  | nil => rfl
  | cons c cs ih =>
    obtain ⟨hc, hcs⟩ := List.forall_mem_cons.mp h
    obtain rfl | ⟨d, rfl⟩ := hc
    · exact ih hcs r
    · exact ih hcs (absorbByte Config.impl d r)

theorem bytesOf_map_upd8 (m : List Byte) : bytesOf (m.map .upd8) = m := by
  induction m with
  | nil => rfl
  | cons b m ih => exact congrArg (b :: ·) ih

theorem absorb_workedChunk : absorb 0xFFFFFFFF workedChunk.message = 0x542E27B1 := by decide +kernel

/-- Settles O41: INIT gives the start values, the bytes are absorbed into them. -/
theorem wholeMessageCrc : Obligations.WholeMessageCrc := by
  refine ⟨fun s cs h => ⟨_, run_init cs s, rfl, ?_, ?_⟩, bytesOf_map_upd8, absorb_workedChunk,
    (congrArg finalize absorb_workedChunk).trans (by decide), by decide⟩
  · rw [afterAll_upd8_nop h]
    rfl
  · rw [afterAll_upd8_nop h]
    rfl

/-- Settles O43: each value is computed from the definition. -/
theorem cornerMessageValues : Obligations.CornerMessageValues := by
  unfold Obligations.CornerMessageValues
  decide +kernel

end Sys2Proof.Machine
end

section
/-! The register as a polynomial over GF(2): an update multiplies it by `x` modulo `G(x)`, and a
message byte enters as the terms above `x^31` (rule R74). -/

namespace Sys2Proof.Machine

open Polynomial

/-- `G(x)` (rule R74). -/
noncomputable def genPoly : (ZMod 2)[X] :=
  X ^ 32 + X ^ 26 + X ^ 23 + X ^ 22 + X ^ 16 + X ^ 12 + X ^ 11 + X ^ 10 + X ^ 8 + X ^ 7 +
    X ^ 5 + X ^ 4 + X ^ 2 + X + 1

/-- The term `x^n` when the bit is set. -/
noncomputable def bitTerm (b : Bool) (n : ℕ) : (ZMod 2)[X] := if b = true then X ^ n else 0

/-- The register as a polynomial: bit `j` is the coefficient of `x^(31-j)` (rule R74). -/
noncomputable def regPoly (a : Word) : (ZMod 2)[X] :=
  ∑ j ∈ Finset.range 32, bitTerm (a.getLsbD j) (31 - j)

/-- The bits of a byte, bit 0 as the highest power (rule R74). -/
noncomputable def bytePoly (d : Byte) : (ZMod 2)[X] :=
  ∑ i ∈ Finset.range 8, bitTerm (d.getLsbD i) (7 - i)

/-- `M(x)`: the bits of a message, the first as the highest power (rule R74). -/
noncomputable def messagePoly (m : List Byte) : (ZMod 2)[X] :=
  ∑ i ∈ Finset.range (8 * m.length),
    bitTerm ((m.getD (i / 8) 0).getLsbD (i % 8)) (8 * m.length - 1 - i)

theorem genPoly_monic : genPoly.Monic := by
  unfold genPoly
  monicity!

theorem degree_genPoly : genPoly.degree = 32 := by
  unfold genPoly
  compute_degree!

@[simp] theorem bitTerm_true (n : ℕ) : bitTerm true n = X ^ n := rfl

@[simp] theorem bitTerm_false (n : ℕ) : bitTerm false n = 0 := rfl

/-- Adding bits over GF(2) is their exclusive or. -/
theorem bitTerm_xor (b c : Bool) (n : ℕ) : bitTerm (b ^^ c) n = bitTerm b n + bitTerm c n := by
  cases b <;> cases c <;> simp [CharTwo.add_self_eq_zero]

theorem bitTerm_mul_X_pow (b : Bool) (n k : ℕ) : bitTerm b n * X ^ k = bitTerm b (n + k) := by
  cases b <;> simp [pow_add]

theorem bitTerm_mul_X (b : Bool) (n : ℕ) : bitTerm b n * X = bitTerm b (n + 1) := by
  cases b <;> simp [pow_succ]

theorem coeff_bitTerm_self (b : Bool) (n : ℕ) :
    (bitTerm b n).coeff n = if b = true then 1 else 0 := by
  cases b <;> simp

theorem coeff_bitTerm_of_ne (b : Bool) {n k : ℕ} (h : k ≠ n) : (bitTerm b n).coeff k = 0 := by
  cases b <;> simp [coeff_X_pow, h]

/-- Bit `j` of the register is the coefficient of `x^(31-j)` (rule R74). -/
theorem coeff_regPoly (a : Word) {j : ℕ} (hj : j < 32) :
    (regPoly a).coeff (31 - j) = if a.getLsbD j = true then 1 else 0 := by
  rw [regPoly, finsetSum_coeff, Finset.sum_eq_single_of_mem j (Finset.mem_range.mpr hj),
    coeff_bitTerm_self]
  intro i hi hne
  have := Finset.mem_range.mp hi
  exact coeff_bitTerm_of_ne _ (by omega)

theorem degree_regPoly_lt (a : Word) : (regPoly a).degree < 32 := by
  refine (degree_lt_iff_coeff_zero _ 32).mpr fun n hn => ?_
  rw [regPoly, finsetSum_coeff]
  exact Finset.sum_eq_zero fun j _ => coeff_bitTerm_of_ne _ (by omega)

theorem regPoly_xor (u v : Word) : regPoly (u ^^^ v) = regPoly u + regPoly v := by
  simp only [regPoly, BitVec.getLsbD_xor, bitTerm_xor, Finset.sum_add_distrib]

/-- The start value is `I(x)` (rule R74). -/
theorem regPoly_initV : regPoly Config.initV = ∑ k ∈ Finset.range 32, X ^ k := by
  rw [← Finset.sum_range_reflect]
  refine Finset.sum_congr rfl fun j hj => ?_
  have all_set : Config.initV.getLsbD j = true := by
    rw [show Config.initV = BitVec.allOnes 32 from rfl, BitVec.getLsbD_allOnes]
    exact decide_eq_true (Finset.mem_range.mp hj)
  rw [all_set, bitTerm_true]

/-- `POLY_R` holds the terms of `G(x)` below `x^32` (rules R63, R74). -/
theorem genPoly_eq_X_pow_add : genPoly = X ^ 32 + regPoly Config.polyR := by
  have terms : regPoly Config.polyR = X ^ 26 + X ^ 23 + X ^ 22 + X ^ 16 + X ^ 12 + X ^ 11 + X ^ 10 +
      X ^ 8 + X ^ 7 + X ^ 5 + X ^ 4 + X ^ 2 + X + 1 := by
    simp [-BitVec.getLsbD_eq_getElem, regPoly, Finset.sum_range_succ, Config.polyR]
  rw [terms, genPoly]
  abel

/-- A shift multiplies by `x`, apart from the bit that leaves the register. -/
theorem regPoly_mul_X (a : Word) :
    regPoly a * X = regPoly (a >>> 1) + bitTerm (a.getLsbD 0) 32 := by
  have top : (a >>> 1).getLsbD 31 = false := by
    rw [BitVec.getLsbD_ushiftRight, BitVec.getLsbD_of_ge _ _ (le_refl 32)]
  have moved : ∀ j ∈ Finset.range 31, bitTerm (a.getLsbD (j + 1)) (31 - (j + 1)) * X =
      bitTerm ((a >>> 1).getLsbD j) (31 - j) := fun j hj => by
    have := Finset.mem_range.mp hj
    rw [bitTerm_mul_X, BitVec.getLsbD_ushiftRight, Nat.add_comm 1 j,
      show 31 - (j + 1) + 1 = 31 - j by omega]
  calc regPoly a * X
    _ = (∑ j ∈ Finset.range 31, bitTerm (a.getLsbD (j + 1)) (31 - (j + 1)) * X) +
          bitTerm (a.getLsbD 0) 31 * X := by
      rw [regPoly, Finset.sum_range_succ', add_mul, Finset.sum_mul]
    _ = (∑ j ∈ Finset.range 31, bitTerm ((a >>> 1).getLsbD j) (31 - j)) +
          bitTerm (a.getLsbD 0) 32 := by
      rw [Finset.sum_congr rfl moved, bitTerm_mul_X]
    _ = regPoly (a >>> 1) + bitTerm (a.getLsbD 0) 32 := by
      rw [regPoly, Finset.sum_range_succ _ 31, top, bitTerm_false, add_zero]

/-- Entering a byte and shifting it through puts its bits above `x^31`. -/
theorem regPoly_zext32_mul_X_pow (d : Byte) : regPoly (zext32 d) * X ^ 8 = bytePoly d * X ^ 32 := by
  have low : regPoly (zext32 d) = ∑ j ∈ Finset.range 8, bitTerm (d.getLsbD j) (31 - j) := by
    simp only [regPoly, getLsbD_zext32]
    refine (Finset.sum_subset (Finset.range_mono (by decide)) fun j _ hj => ?_).symm
    rw [Finset.mem_range, not_lt] at hj
    rw [BitVec.getLsbD_of_ge d j hj, bitTerm_false]
  rw [low, bytePoly, Finset.sum_mul, Finset.sum_mul]
  refine Finset.sum_congr rfl fun j hj => ?_
  have := Finset.mem_range.mp hj
  rw [bitTerm_mul_X_pow, bitTerm_mul_X_pow, show 31 - j + 8 = 7 - j + 32 by omega]

@[simp] theorem messagePoly_nil : messagePoly [] = 0 := rfl

/-- The first byte of a message stands above the rest (rule R74). -/
theorem messagePoly_cons (d : Byte) (m : List Byte) :
    messagePoly (d :: m) = bytePoly d * X ^ (8 * m.length) + messagePoly m := by
  have len : 8 * (d :: m).length = 8 + 8 * m.length := by rw [List.length_cons]; omega
  rw [messagePoly, len, Finset.sum_range_add, bytePoly, Finset.sum_mul, messagePoly]
  congr 1
  · refine Finset.sum_congr rfl fun i hi => ?_
    have hi := Finset.mem_range.mp hi
    rw [Nat.div_eq_of_lt hi, Nat.mod_eq_of_lt hi, List.getD_cons_zero, bitTerm_mul_X_pow,
      show 8 + 8 * m.length - 1 - i = 7 - i + 8 * m.length by omega]
  · refine Finset.sum_congr rfl fun i _ => ?_
    rw [Nat.add_div_left i (by decide), Nat.add_mod_left, List.getD_cons_succ,
      show 8 + 8 * m.length - 1 - (8 + i) = 8 * m.length - 1 - i by omega]

/-- Modulo `G(x)` the term that leaves the register comes back as `POLY_R` (rule R74). -/
theorem mk_regPoly_polyR :
    AdjoinRoot.mk genPoly (regPoly Config.polyR) = AdjoinRoot.mk genPoly (X ^ 32) := by
  rw [AdjoinRoot.mk_eq_mk, CharTwo.sub_eq_add, add_comm, ← genPoly_eq_X_pow_add]

/-- The one-bit update multiplies by `x` modulo `G(x)` (rule R74). -/
theorem mk_regPoly_step1 (a : Word) :
    AdjoinRoot.mk genPoly (regPoly (step1 a)) = AdjoinRoot.mk genPoly (regPoly a * X) := by
  rw [regPoly_mul_X, map_add, step1]
  split
  · next hbit => rw [hbit, bitTerm_true, regPoly_xor, map_add, mk_regPoly_polyR]
  · next hbit => rw [Bool.eq_false_iff.mpr hbit, bitTerm_false, map_zero, add_zero]

/-- `k` updates multiply by `x^k` modulo `G(x)`. -/
theorem mk_regPoly_step1N (k : ℕ) (a : Word) :
    AdjoinRoot.mk genPoly (regPoly (step1N k a)) = AdjoinRoot.mk genPoly (regPoly a * X ^ k) := by
  induction k generalizing a with
  | zero => rw [step1N_zero, pow_zero, mul_one]
  | succ k ih => rw [step1N_succ, ih, map_mul, mk_regPoly_step1, ← map_mul, mul_assoc, ← pow_succ']

/-- Absorbing a byte modulo `G(x)`. -/
theorem mk_regPoly_step8 (a : Word) (d : Byte) :
    AdjoinRoot.mk genPoly (regPoly (step8 Config.impl a d)) =
      AdjoinRoot.mk genPoly (regPoly a * X ^ 8 + bytePoly d * X ^ 32) := by
  rw [step8_impl, mk_regPoly_step1N, regPoly_xor, add_mul, regPoly_zext32_mul_X_pow]

/-- Absorbing a message modulo `G(x)` (rule R74). -/
theorem mk_regPoly_absorb (m : List Byte) (a : Word) :
    AdjoinRoot.mk genPoly (regPoly (absorb a m)) =
      AdjoinRoot.mk genPoly (regPoly a * X ^ (8 * m.length) + messagePoly m * X ^ 32) := by
  induction m generalizing a with
  | nil => rw [absorb_nil, List.length_nil, mul_zero, pow_zero, mul_one, messagePoly_nil,
      zero_mul, add_zero]
  | cons d m ih =>
    have head_apart : regPoly a * X ^ (8 * (d :: m).length) + messagePoly (d :: m) * X ^ 32 =
        (regPoly a * X ^ 8 + bytePoly d * X ^ 32) * X ^ (8 * m.length) +
          messagePoly m * X ^ 32 := by
      rw [messagePoly_cons, List.length_cons]
      ring
    rw [absorb_cons, ih, head_apart, map_add, map_mul, mk_regPoly_step8, ← map_mul, ← map_add]

/-- The register after a message is the remainder by `G(x)`: it is congruent to it and of degree
below 32 (rule R74). -/
theorem modByMonic_genPoly_eq_regPoly_absorb (m : List Byte) (a : Word) :
    (regPoly a * X ^ (8 * m.length) + messagePoly m * X ^ 32) %ₘ genPoly =
      regPoly (absorb a m) := by
  have small : (regPoly (absorb a m)).degree < genPoly.degree := by
    rw [degree_genPoly]
    exact degree_regPoly_lt _
  rw [← (modByMonic_eq_self_iff genPoly_monic).mpr small]
  exact modByMonic_eq_of_dvd_sub genPoly_monic
    (AdjoinRoot.mk_eq_mk.mp (mk_regPoly_absorb m a).symm)

/-- A coefficient is 1 exactly when the bit of the register is set. -/
theorem coeff_regPoly_eq_one_iff (a : Word) {j : ℕ} (hj : j < 32) :
    (regPoly a).coeff (31 - j) = 1 ↔ a.getLsbD j = true := by
  rw [coeff_regPoly a hj]
  cases a.getLsbD j <;> decide

/-- The complement turns over every bit (rule R79). -/
theorem getLsbD_finalize (a : Word) {j : ℕ} (hj : j < 32) :
    (finalize a).getLsbD j = !a.getLsbD j := by
  rw [show finalize a = a ^^^ BitVec.allOnes 32 from rfl, BitVec.xor_allOnes, BitVec.getLsbD_not,
    decide_eq_true hj, Bool.true_and]

/-- A coefficient is 0 exactly when the bit of the complement is set. -/
theorem coeff_regPoly_eq_zero_iff (a : Word) {j : ℕ} (hj : j < 32) :
    (regPoly a).coeff (31 - j) = 0 ↔ (finalize a).getLsbD j = true := by
  rw [coeff_regPoly a hj, getLsbD_finalize a hj]
  cases a.getLsbD j <;> decide

/-- Settles O42: the register polynomial is the remainder: an update multiplies it by `x` modulo
`G(x)`, and its degree is below 32. -/
theorem registerIsPolynomialRemainder : Obligations.RegisterIsPolynomialRemainder := by
  intro m x G L I M R
  have hR : R = regPoly (absorb Config.initV m) := by
    rw [← modByMonic_genPoly_eq_regPoly_absorb, regPoly_initV]
    rfl
  refine ⟨genPoly_monic, hR ▸ degree_regPoly_lt _, fun j hj => ?_⟩
  rw [hR]
  exact ⟨(coeff_regPoly_eq_one_iff _ hj).symm, (coeff_regPoly_eq_zero_iff _ hj).symm⟩

end Sys2Proof.Machine
end

section
/-! CHK and the output: the comparison on the registers, the verdict on a message, and the
complement on the port (rules R79, R83, R84). -/

namespace Sys2Proof.Machine

/-- A command from a defined state, the state not written out (rule R22). -/
theorem exec_of_defined {s : State} {r : Regs} (h : s.block = .defined r) (i : Instr) :
    exec i s = .next { s with block := .defined (r.after i) } := by
  obtain ⟨_, ps⟩ := s
  cases h
  exact exec_defined i r ps

/-- CHK from a defined state (rule R83). -/
theorem exec_chk_of_defined {s : State} {r q : Regs} {e : Word} (h : s.block = .defined r)
    (hcheck : recordCheck e r = q) : exec (.chk e) s = .next { s with block := .defined q } :=
  hcheck ▸ exec_of_defined h (.chk e)

/-- CHK from the power-on state (rule R25). -/
theorem exec_chk_of_powerOn {s : State} (h : s.block = .powerOn) (e : Word) :
    exec (.chk e) s = .fault .powerOnRead := by
  obtain ⟨_, ps⟩ := s
  cases h
  exact onDefined_powerOn ps (recordCheck e)

/-- Comparing with `crc_out` itself keeps `MM` (rule R83). -/
theorem recordCheck_finalize (r : Regs) :
    recordCheck (finalize r.acc) r = { r with ck := true } := by
  rw [recordCheck, mmAfterCheck, mismatch, bne_self_eq_false, Bool.or_false]

/-- Comparing with any other value sets `MM` (rule R83). -/
theorem recordCheck_of_ne {e : Word} {r : Regs} (h : finalize r.acc ≠ e) :
    recordCheck e r = { r with mm := true, ck := true } := by
  rw [recordCheck, mmAfterCheck, mismatch, bne_iff_ne.mpr h, Bool.or_true]

/-- Right after INIT the comparison is with 0 (rule R83). -/
theorem recordCheck_start (e : Word) : recordCheck e Regs.start = ⟨0xFFFFFFFF, e != 0, true⟩ := by
  rw [recordCheck, mmAfterCheck, mismatch, finalize_start, bne_comm]
  rfl

/-- Settles O17: CHK is `recordCheck` on the registers, and two values that differ in a bit are
different numbers. -/
theorem chkComparesAllBits : Obligations.ChkComparesAllBits := by
  refine ⟨fun _ _ e h => exec_of_defined h (.chk e), encode_chk_eq_add, fun _ => decode_op3,
    fun _ r h => exec_chk_of_defined h (recordCheck_finalize r), fun s r e j h _ hbit => ?_,
    fun _ e h => exec_chk_of_powerOn h e, fun s e => ?_, rfl, rfl⟩
  · have differ : finalize r.acc ≠ e := fun heq => hbit (congrArg (BitVec.getLsbD · j) heq.symm)
    exact exec_chk_of_defined h (recordCheck_of_ne differ)
  · exact (run_cons_of_exec (exec_init s) _).trans
      (run_cons_of_exec (exec_chk_of_defined rfl (recordCheck_start e)) [])

/-- CHK leaves `ACC`, so `crc_out` too (rule R84 (a)). -/
theorem crcOut_of_exec_chk {e : Word} {s t : State} (h : exec (.chk e) s = .next t) :
    t.crcOut = s.crcOut := by
  obtain ⟨hnop, _⟩ | ⟨hinit, _⟩ | ⟨r, hr, rfl⟩ := exec_next_cases h
  · cases hnop
  · cases hinit
  · obtain ⟨_, ps⟩ := s
    cases hr
    rfl

/-- No command but INIT clears a flag (rules R15, R16). -/
theorem after_keeps_set_flags {i : Instr} (hi : i ≠ .init) (r : Regs) :
    (r.mm = true → (r.after i).mm = true) ∧ (r.ck = true → (r.after i).ck = true) := by
  cases i with
  | nop => exact ⟨id, id⟩
  | init => exact absurd rfl hi
  | upd8 d => exact ⟨id, id⟩
  | chk e => exact ⟨fun hmm => Bool.or_eq_true_iff.mpr (.inl hmm), fun _ => recordCheck_ck e r⟩

/-- No command list without INIT clears a flag (rule R84 (b), (c)). -/
theorem afterAll_keeps_set_flags {cs : List Instr} (h : .init ∉ cs) (r : Regs) :
    (r.mm = true → (r.afterAll cs).mm = true) ∧ (r.ck = true → (r.afterAll cs).ck = true) := by
  induction cs generalizing r with
  | nil => exact ⟨id, id⟩
  | cons c cs ih =>
    obtain ⟨hc, hcs⟩ := List.ne_and_not_mem_of_not_mem_cons h
    obtain ⟨mm_first, ck_first⟩ := after_keeps_set_flags (Ne.symm hc) r
    obtain ⟨mm_rest, ck_rest⟩ := ih hcs (r.after c)
    exact ⟨mm_rest ∘ mm_first, ck_rest ∘ ck_first⟩

/-- Two comparisons leave in `MM` whether either found a difference (rule R84 (d), (e)). -/
theorem recordCheck_recordCheck (e f : Word) (r : Regs) :
    recordCheck f (recordCheck e r) =
      ⟨r.acc, r.mm || (finalize r.acc != e || finalize r.acc != f), true⟩ :=
  congrArg (Regs.mk r.acc · true) (Bool.or_assoc ..)

/-- Comparing twice with one value is comparing once (rule R84 (d)). -/
theorem recordCheck_idem (e : Word) (r : Regs) :
    recordCheck e (recordCheck e r) = recordCheck e r := by
  rw [recordCheck_recordCheck, Bool.or_self]
  rfl

/-- The order of two comparisons does not matter (rule R84 (e)). -/
theorem recordCheck_comm (e f : Word) (r : Regs) :
    recordCheck f (recordCheck e r) = recordCheck e (recordCheck f r) := by
  rw [recordCheck_recordCheck, recordCheck_recordCheck, Bool.or_comm (finalize r.acc != e)]

/-- Command lists that do the same to the registers are equivalent (rule R56). -/
theorem equivalent_of_afterAll_eq {cs ds : List Instr}
    (h : ∀ r : Regs, r.afterAll cs = r.afterAll ds) : Equivalent cs ds :=
  (equivalent_iff cs ds).mpr fun r ps => by rw [run_defined, run_defined, h]

/-- Checking a whole message completes from every state, with one comparison of its CRC
(rules R72, R83). -/
theorem run_check_message (m : List Byte) (e : Word) (s : State) :
    run (.init :: (m.map .upd8 ++ [.chk e])) s =
      .next ⟨.defined ⟨absorb Config.initV m, crc32 m != e, true⟩, s.inputs⟩ := by
  rw [run_init, afterAll_append, afterAll_upd8]
  rfl

/-- The verdict after one comparison from cleared flags (rules R26, R83). -/
theorem verdict_bne (c e : Word) : verdict (c != e) true = if e = c then .pass else .fail := by
  by_cases h : e = c
  · rw [if_pos h, h, bne_self_eq_false]
    rfl
  · rw [if_neg h, bne_iff_ne.mpr (Ne.symm h)]
    rfl

/-- The verdict on a whole message is PASS exactly for its CRC (rule R84 (f)). -/
theorem verdict_check_message (m : List Byte) (e : Word) (s : State) :
    ∃ t, run (.init :: (m.map .upd8 ++ [.chk e])) s = .next t ∧
      t.verdict = some (if e = crc32 m then .pass else .fail) :=
  ⟨_, run_check_message m e s, congrArg some (verdict_bne (crc32 m) e)⟩

/-- The check of a whole message passes with its CRC and with no other value (rule R84 (g)). -/
theorem check_message_passes_iff (m : List Byte) (e : Word) (s : State) :
    (∃ t, run (.init :: (m.map .upd8 ++ [.chk e])) s = .next t ∧ t.verdict = some .pass) ↔
      e = crc32 m := by
  obtain ⟨u, hrun, hverdict⟩ := verdict_check_message m e s
  constructor
  · rintro ⟨t, ht, hpass⟩
    cases hrun.symm.trans ht
    by_contra hne
    rw [if_neg hne, hpass] at hverdict
    cases hverdict
  · intro heq
    exact ⟨u, hrun, hverdict.trans (congrArg some (if_pos heq))⟩

/-- Settles O30: a CHK joins one comparison to `MM` and leaves `ACC`, so the laws are those of
`||`; a message's check is a comparison of its CRC. -/
theorem chkLaws : Obligations.ChkLaws :=
  ⟨fun _ _ _ => crcOut_of_exec_chk,
    fun cs r ps h => ⟨r.afterAll cs, run_defined cs r ps, afterAll_keeps_set_flags h r⟩,
    fun e => equivalent_of_afterAll_eq (recordCheck_idem e),
    fun e f => equivalent_of_afterAll_eq (recordCheck_comm e f), verdict_check_message,
    fun m s => ⟨crc32 m, (check_message_passes_iff m _ s).mpr rfl,
      fun e => (check_message_passes_iff m e s).mp⟩⟩

/-- Settles O28: the port holds `finalize` of `ACC`, which turns over each bit in place. -/
theorem outputIsComplement : Obligations.OutputIsComplement :=
  ⟨crcOut_defined, fun a _ => getLsbD_finalize a, absorb_workedChunk,
    (congrArg finalize absorb_workedChunk).trans (by decide)⟩

end Sys2Proof.Machine
end

section
/-! The lookup table: the listing is the definition, and its properties follow from the linearity of
the update and from where bit 0 of the register goes (rules R68, R89, R90). -/

namespace Sys2Proof.Machine

/-- The listing, evaluated against the definition (rule R91). -/
theorem lutRom_eq_map_lut : lutRom = (List.range 256).map fun n => lut (BitVec.ofNat 8 n) := by
  decide +kernel

/-- Settles O35: the listing is the definition over the indices in order. -/
theorem lutListingMatchesDefinition : Obligations.LutListingMatchesDefinition := by
  refine ⟨?_, fun i => ?_⟩
  · rw [lutRom_eq_map_lut, List.length_map, List.length_range]
  · rw [lutRom_eq_map_lut, List.getElem?_map, List.getElem?_range i.isLt, Option.map_some,
      BitVec.ofNat_toNat, BitVec.setWidth_eq]

/-- The table is linear over its index (rule R90 (c)). -/
theorem lut_xor (i j : Byte) : lut (i ^^^ j) = lut i ^^^ lut j := by
  rw [lut, zext32_xor, step1N_xor, lut, lut]

@[simp] theorem lut_zero : lut 0 = 0 := by decide

/-- The exclusive or of entries is the entry at the exclusive or of their indices. -/
theorem foldr_xor_map_lut (is : List Byte) :
    (is.map lut).foldr (· ^^^ ·) 0 = lut (is.foldr (· ^^^ ·) 0) := by
  induction is with
  | nil => exact lut_zero.symm
  | cons i is ih => rw [List.map_cons, List.foldr_cons, List.foldr_cons, ih, lut_xor]

/-- Bit 0 of the register is bit 31 after the update: bit 31 of `POLY_R` is set. -/
theorem getLsbD_step1_top (a : Word) : (step1 a).getLsbD 31 = a.getLsbD 0 := by
  have top : Config.polyR.getLsbD 31 = true := by decide
  rw [getLsbD_step1, BitVec.getLsbD_of_ge a 32 le_rfl, top, Bool.and_true, Bool.false_xor]

/-- `k` updates leave the top `k` bits clear only if the low `k` bits were clear: each low bit
reaches bit 31 and is shifted down from there. -/
theorem low_bits_zero_of_step1N_top_bits_zero {k : Nat} (hk : k ≤ 32) {a : Word}
    (top : ∀ j < k, (step1N k a).getLsbD (31 - j) = false) : ∀ j < k, a.getLsbD j = false := by
  induction k generalizing a with
  | zero => exact fun _ hj => absurd hj (Nat.not_lt_zero _)
  | succ k ih =>
    rw [step1N_succ] at top
    have low : ∀ j < k, (step1 a).getLsbD j = false :=
      ih (by omega) fun j hj => top j (by omega)
    have bit0 : a.getLsbD 0 = false := by
      have := top k k.lt_succ_self
      rwa [step1N_of_low_bits_zero low, BitVec.getLsbD_ushiftRight,
        Nat.add_sub_cancel' (by omega), getLsbD_step1_top] at this
    rintro (_ | j) hj
    · exact bit0
    · have := low j (by omega)
      rwa [step1_of_low_bit_zero bit0, BitVec.getLsbD_ushiftRight, Nat.add_comm] at this

/-- Only the entry at index 0 has its top byte clear. -/
theorem eq_zero_of_lut_top_byte_zero {i : Byte} (h : (lut i).extractLsb' 24 8 = 0#8) : i = 0#8 := by
  have top : ∀ j < 8, (lut i).getLsbD (31 - j) = false := fun j hj => by
    have bit := congrArg (BitVec.getLsbD · (7 - j)) h
    rwa [BitVec.getLsbD_extractLsb', decide_eq_true (by omega), Bool.true_and,
      ← Nat.add_sub_assoc (by omega), BitVec.getLsbD_zero] at bit
  have low := low_bits_zero_of_step1N_top_bits_zero (by decide) top
  refine BitVec.eq_of_getLsbD_eq fun j hj => ?_
  rw [← getLsbD_zext32, low j hj, BitVec.getLsbD_zero]

/-- The top bytes of the entries are pairwise different (rule R90 (d)). -/
theorem lut_top_byte_injective : Function.Injective fun i => (lut i).extractLsb' 24 8 := by
  intro i j h
  refine BitVec.xor_eq_zero_iff.mp (eq_zero_of_lut_top_byte_zero ?_)
  rw [lut_xor, BitVec.extractLsb'_xor]
  exact BitVec.xor_eq_zero_iff.mpr h

/-- The sum of the entries, evaluated (rule R90 (f)). -/
theorem sum_lut :
    ((List.range 256).map fun n => (lut (BitVec.ofNat 8 n)).toNat).sum = 549755813760 := by
  decide +kernel

/-- The indices cancel, hence so do the entries (rule R90 (e)). -/
theorem foldr_xor_lut :
    ((List.range 256).map fun n => lut (BitVec.ofNat 8 n)).foldr (· ^^^ ·) 0 = 0 := by
  have indices : ((List.range 256).map (BitVec.ofNat 8)).foldr (· ^^^ ·) 0 = 0 := by
    decide +kernel
  calc ((List.range 256).map fun n => lut (BitVec.ofNat 8 n)).foldr (· ^^^ ·) 0
      = (((List.range 256).map (BitVec.ofNat 8)).map lut).foldr (· ^^^ ·) 0 := by
        rw [List.map_map, Function.comp_def]
    _ = 0 := by rw [foldr_xor_map_lut, indices, lut_zero]

/-- Settles O36: the entries named are evaluated; the general properties are the linearity of the
table and the way of a low bit to the top byte. -/
theorem lutProperties : Obligations.LutProperties :=
  ⟨lut_zero, by decide, lut_xor, by decide, by decide, by decide, by decide, by decide, by decide,
    by decide, by decide, fun _ _ h => lut_top_byte_injective (congrArg (·.extractLsb' 24 8) h),
    fun _ _ h => lut_top_byte_injective h, foldr_xor_lut, sum_lut, by decide, by decide⟩

end Sys2Proof.Machine
end

section
/-! What a sample and a step can answer, and the invariant of rule R27 along them (rules R12, R22,
R27). -/

namespace Sys2Proof.Machine

/-- If a clocked sample answers a next state, then the block is untouched, started anew, or advanced
on its registers (rule R22). -/
theorem clock_next_cases {p : Sample} {s t : State} (h : clock p s = .next t) :
    t = s ∨ t = startMessage s ∨
      ∃ r, s.block = .defined r ∧ t = { s with block := .defined (r.clocked p) } := by
  obtain ⟨_ | r, ps⟩ := s
  · obtain ⟨_, hstart⟩ | ⟨_, hexec⟩ := clock_cases p ⟨.powerOn, ps⟩
    · exact .inr (.inl (Host.Outcome.next.inj (h.symm.trans hstart)))
    · obtain ⟨_, ht⟩ | ⟨_, ht⟩ | ⟨r, hr, _⟩ := exec_next_cases (hexec.symm.trans h)
      · exact .inl ht
      · exact .inr (.inl ht)
      · cases hr
  · rw [clock_defined] at h
    exact .inr (.inr ⟨r, rfl, (Host.Outcome.next.inj h).symm⟩)

/-- A clocked sample keeps the invariant of rule R27 and a defined block defined. -/
theorem clock_flagsAgree {p : Sample} {s t : State} (hs : s.flagsAgree = true)
    (h : clock p s = .next t) :
    t.flagsAgree = true ∧ (s.isDefined = true → t.isDefined = true) := by
  obtain rfl | rfl | ⟨r, hr, rfl⟩ := clock_next_cases h
  · exact ⟨hs, id⟩
  · exact ⟨start_flagsAgree, fun _ => rfl⟩
  · have hagree : r.flagsAgree = true := by rwa [State.flagsAgree, hr] at hs
    exact ⟨clocked_flagsAgree p hagree, fun _ => rfl⟩

/-- A step with a sample waiting clocks the oldest one (rule R12). -/
theorem step_of_inputs {s : State} {p : Sample} {ps : List Sample} (h : s.inputs = p :: ps) :
    step s = clock p { s with inputs := ps } := by
  obtain ⟨b, _⟩ := s
  cases h
  exact step_cons b p ps

/-- A step without a sample waiting is refused as the end of the run (log entry 2). -/
theorem step_of_inputs_nil {s : State} (h : s.inputs = []) : step s = .refused .endOfRun := by
  obtain ⟨b, _⟩ := s
  cases h
  exact step_nil b

/-- A step that answers a next state clocked the oldest waiting sample (rule R12). -/
theorem exists_clock_of_step {s t : State} (h : step s = .next t) :
    ∃ p ps, clock p { s with inputs := ps } = .next t := by
  cases hinputs : s.inputs with
  | nil => cases (step_of_inputs_nil hinputs).symm.trans h
  | cons p ps => exact ⟨p, ps, (step_of_inputs hinputs).symm.trans h⟩

/-- Settles O23: a step clocks a sample, and every sample starts the registers anew or keeps the
invariant on them. -/
theorem stepKeepsFlagsAgree : Obligations.StepKeepsFlagsAgree := by
  intro s t hs h
  obtain ⟨p, ps, hclock⟩ := exists_clock_of_step h
  exact clock_flagsAgree (s := { s with inputs := ps }) hs hclock

/-- Settles O24: the flags are clear after reset, and there are none at power-on. -/
theorem resetFlagsAgree : Obligations.ResetFlagsAgree := ⟨start_flagsAgree, rfl, rfl⟩

/-- Settles O7: with `rst = 0` the sample taken runs what its word decodes to. -/
theorem stepRunsDecodedCommand : Obligations.StepRunsDecodedCommand := fun _ _ _ h =>
  (step_of_inputs h).trans (clock_eq_exec rfl _)

/-- Settles O10: a reset step and INIT are both `startMessage`. -/
theorem resetOverridesCommand : Obligations.ResetOverridesCommand := fun s w =>
  have reset (u : State) := clock_restarts (p := ⟨true, w⟩) rfl u
  ⟨reset s, clock_eq_exec rfl s, (reset s).symm, fun _ h => (step_of_inputs h).trans (reset _)⟩

end Sys2Proof.Machine
end

section
/-! How a command, a sample and a step can stop; the waiting samples are neither read nor changed by
a sample, so running them is folding over them (rules R12, R25, R54, R118). -/

namespace Sys2Proof.Machine

/-- A command does the same whatever samples wait, and leaves them waiting: it goes on, or it faults
as UPD8 and CHK do at power-on (rules R25, R54). -/
theorem exec_cases (i : Instr) (b : Block) :
    (∃ b', ∀ ps, exec i ⟨b, ps⟩ = .next ⟨b', ps⟩) ∨
      b = .powerOn ∧ ((∃ d, i = .upd8 d) ∨ ∃ e, i = .chk e) ∧
        ∀ ps, exec i ⟨b, ps⟩ = .fault .powerOnRead := by
  cases b with
  | defined r => exact .inl ⟨.defined (r.after i), exec_defined i r⟩
  | powerOn =>
    cases i with
    | nop => exact .inl ⟨.powerOn, fun _ => exec_nop _⟩
    | init => exact .inl ⟨.defined Regs.start, fun _ => exec_init _⟩
    | upd8 d => exact .inr ⟨rfl, .inl ⟨d, rfl⟩, fun _ => exec_upd8_of_powerOn rfl d⟩
    | chk e => exact .inr ⟨rfl, .inr ⟨e, rfl⟩, fun _ => exec_chk_of_powerOn rfl e⟩

/-- A sample does the same whatever samples wait after it, and leaves them waiting (rule R12). -/
theorem clock_uniform (p : Sample) (b : Block) :
    (∃ b', ∀ ps, clock p ⟨b, ps⟩ = .next ⟨b', ps⟩) ∨
      ∀ ps, clock p ⟨b, ps⟩ = .fault .powerOnRead := by
  obtain ⟨_ | _, w⟩ := p
  · obtain hnext | ⟨_, _, hfault⟩ := exec_cases (decode w) b
    · exact .inl hnext
    · exact .inr hfault
  · exact .inl ⟨.defined Regs.start, fun ps => clock_restarts (p := ⟨true, w⟩) rfl ⟨b, ps⟩⟩

theorem exec_ne_refused (i : Instr) (s : State) (r : Refusal) : exec i s ≠ .refused r := by
  obtain ⟨b', hnext⟩ | ⟨_, _, hfault⟩ := exec_cases i s.block
  · exact ne_of_eq_of_ne (hnext s.inputs) nofun
  · exact ne_of_eq_of_ne (hfault s.inputs) nofun

theorem clock_ne_refused (p : Sample) (s : State) (r : Refusal) : clock p s ≠ .refused r := by
  obtain ⟨b', hnext⟩ | hfault := clock_uniform p s.block
  · exact ne_of_eq_of_ne (hnext s.inputs) nofun
  · exact ne_of_eq_of_ne (hfault s.inputs) nofun

/-- Settles O8: the step takes a sample when one waits, and no sample is refused. -/
theorem stepRefusedOnlyAtEndOfRun : Obligations.StepRefusedOnlyAtEndOfRun := by
  intro s r
  cases hinputs : s.inputs with
  | nil =>
    rw [step_of_inputs_nil hinputs, Host.Outcome.refused.injEq, eq_comm]
    exact (and_iff_right rfl).symm
  | cons p ps =>
    rw [step_of_inputs hinputs]
    exact iff_of_false (clock_ne_refused p _ r) fun h => nomatch h.1

/-- The only stop of a command is the fault of UPD8 and CHK at power-on (rules R25, R92). -/
theorem exec_eq_fault_iff (i : Instr) (s : State) (f : Fault) : exec i s = .fault f ↔
    s.isDefined = false ∧ f = .powerOnRead ∧ ((∃ d, i = .upd8 d) ∨ ∃ e, i = .chk e) := by
  constructor
  · intro h
    obtain ⟨b', hnext⟩ | ⟨hblock, hi, hfault⟩ := exec_cases i s.block
    · cases (hnext s.inputs).symm.trans h
    · cases (hfault s.inputs).symm.trans h
      exact ⟨by rw [State.isDefined, hblock], rfl, hi⟩
  · obtain ⟨_ | r, ps⟩ := s
    · rintro ⟨_, rfl, ⟨d, rfl⟩ | ⟨e, rfl⟩⟩
      · exact exec_upd8_of_powerOn rfl d
      · exact exec_chk_of_powerOn rfl e
    · rintro ⟨hdefined, _⟩
      cases hdefined

/-- Settles O19: a command works on the registers, and only UPD8 and CHK need some to be there. -/
theorem commandsStopOnlyAtPowerOn : Obligations.CommandsStopOnlyAtPowerOn := by
  refine ⟨fun i s hs => ?_, exec_eq_fault_iff, exec_ne_refused⟩
  obtain ⟨r, hr⟩ := (isDefined_iff s).mp hs
  rw [hr]
  exact ⟨_, exec_defined i r s.inputs, rfl, rfl⟩

/-- The host's run over waiting samples is the fold over them (rules R12, R118). -/
theorem core_run_eq_runSamples (ps rest : List Sample) (b : Block) :
    Host.Core.run Sys2Proof.core ps.length (⟨b, ps ++ rest⟩ : State) = runSamples ps ⟨b, rest⟩ := by
  induction ps generalizing b with
  | nil => rfl
  | cons p ps ih =>
    have hstep := step_cons b p (ps ++ rest)
    obtain ⟨b', hnext⟩ | hfault := clock_uniform p b
    · rw [runSamples, hnext rest]
      exact (core_run_next (hstep.trans (hnext _))).trans (ih b')
    · rw [runSamples, hfault rest]
      exact core_run_fault (hstep.trans (hfault _))

/-- Settles O12: no sample reads the list of those that wait, so taking them from it one by one is
folding over them. -/
theorem runIsFoldOverSamples : Obligations.RunIsFoldOverSamples := by
  intro ps rest s
  rw [core_run_eq_runSamples]
  split <;> assumption

end Sys2Proof.Machine
end

section
/-! What a command leaves in each flag, and that no flag reaches the accumulator (rules R14 to
R16). -/

namespace Sys2Proof.Machine

/-- Only INIT and CHK write a flag (rules R15, R16). -/
theorem after_flags_cases (i : Instr) (r : Regs) :
    ((r.after i).mm = r.mm ∧ (r.after i).ck = r.ck) ∨ i = .init ∨ ∃ e, i = .chk e := by
  cases i with
  | nop => exact .inl ⟨rfl, rfl⟩
  | init => exact .inr (.inl rfl)
  | upd8 d => exact .inl ⟨absorbByte_mm .., absorbByte_ck ..⟩
  | chk e => exact .inr (.inr ⟨e, rfl⟩)

/-- Only INIT and UPD8 write `ACC` (rule R14). -/
theorem after_acc_of_ne {i : Instr} {r : Regs} (h : (r.after i).acc ≠ r.acc) :
    i = .init ∨ ∃ d, i = .upd8 d := by
  obtain hsame | ⟨hinit, _⟩ | ⟨d, hupd, _⟩ := after_acc_cases i r
  · exact absurd hsame h
  · exact .inl hinit
  · exact .inr ⟨d, hupd⟩

/-- Settles O20: a command writes only the fields its row of rules R14 to R16 names. -/
theorem commandFrames : Obligations.CommandFrames := by
  intro i s t q r h hs ht
  cases (exec_of_defined hs i).symm.trans h
  cases ht
  refine ⟨rfl, fun hi => ?_, fun d hi => ?_, fun e hi => ?_, after_acc_of_ne,
    fun hne => (after_flags_cases i q).resolve_left fun hkeep => hne hkeep.1,
    fun hne => (after_flags_cases i q).resolve_left fun hkeep => hne hkeep.2⟩
  · rw [hi]; rfl
  · rw [hi]; exact ⟨absorbByte_mm .., absorbByte_ck ..⟩
  · have hne : Instr.chk e ≠ .init := nofun
    rw [hi]
    exact ⟨recordCheck_acc e q, (after_keeps_set_flags hne q).1⟩

/-- `ACC` after a command depends on `ACC` alone (rules R15, R16). -/
theorem after_acc_congr {q r : Regs} (h : q.acc = r.acc) (i : Instr) :
    (q.after i).acc = (r.after i).acc := by
  cases i with
  | nop => exact h
  | init => rfl
  | upd8 d => exact congrArg (step8 Config.impl · d) h
  | chk e => exact h

/-- `ACC` after a list of samples depends on `ACC` alone (rules R15, R16). -/
theorem clockedAll_acc_congr (ps : List Sample) {q r : Regs} (h : q.acc = r.acc) :
    (q.clockedAll ps).acc = (r.clockedAll ps).acc := by
  induction ps generalizing q r with
  | nil => exact h
  | cons p ps ih =>
    have first : (q.clocked p).acc = (r.clocked p).acc := by
      unfold Regs.clocked
      split
      · rfl
      · exact after_acc_congr h _
    exact ih first

/-- Settles O21: each sample computes `ACC` from `ACC`. -/
theorem flagsNeverReachAcc : Obligations.FlagsNeverReachAcc := by
  intro ps a m k m' k' inp inp'
  have same := clockedAll_acc_congr ps (q := ⟨a, m, k⟩) (r := ⟨a, m', k'⟩) rfl
  rcases hq : Regs.clockedAll ps ⟨a, m, k⟩ with ⟨a', f, g⟩
  rcases hr : Regs.clockedAll ps ⟨a, m', k'⟩ with ⟨_, f', g'⟩
  rw [hq, hr] at same
  cases same
  exact ⟨a', f, g, f', g', by rw [runSamples_defined, hq], by rw [runSamples_defined, hr]⟩

end Sys2Proof.Machine
end

section
/-! The opcode map in its match and mask form, the listed words, and a number presented on the port
(rules R44, R45). -/

namespace Sys2Proof

/-- The match word of a row under its opcode (rule R45). -/
theorem matchWord_decode (w : CmdWord) : matchWord (decode w) = opField w ++ (0#32 : Word) := by
  obtain h | h | h | h := opField_cases w
  · rw [decode_op0 h, h]; rfl
  · rw [decode_op1 h, h]; rfl
  · rw [decode_op2 h, h]; rfl
  · rw [decode_op3 h, h]; rfl

/-- The mask keeps the opcode and clears the argument (rule R45). -/
theorem and_mask_eq_matchWord_decode (w : CmdWord) :
    w &&& 0x300000000 = matchWord (decode w) :=
  calc w &&& 0x300000000
    _ = (opField w ++ argField w) &&& (BitVec.allOnes 2 ++ 0#32) := by
      rw [opField_append_argField]; rfl
    _ = opField w ++ (0#32 : Word) := by
      rw [BitVec.and_append, BitVec.and_allOnes, BitVec.and_zero]
    _ = matchWord (decode w) := (matchWord_decode w).symm

/-- The four match words tell the four commands apart (rule R45). -/
theorem matchWord_eq_iff (i : Instr) :
    (matchWord i = 0x000000000 ↔ i = .nop) ∧ (matchWord i = 0x100000000 ↔ i = .init) ∧
    (matchWord i = 0x200000000 ↔ ∃ d, i = .upd8 d) ∧
    (matchWord i = 0x300000000 ↔ ∃ e, i = .chk e) := by
  cases i <;> simp [matchWord]

/-- Settles O4: under the mask a word is the match word of the command it decodes to. -/
theorem maskSelectsDecodedRow : Obligations.MaskSelectsDecodedRow := by
  refine ⟨fun w => ?_, decode_op0 (by decide)⟩
  rw [and_mask_eq_matchWord_decode]
  obtain ⟨nop, init, upd8, chk⟩ := matchWord_eq_iff (decode w)
  exact ⟨nop, init, upd8, chk, rfl⟩

/-- Settles O5: each listed word is decoded. -/
theorem listedWordsDecode : Obligations.ListedWordsDecode := by
  unfold Obligations.ListedWordsDecode
  decide

/-- A number that fits the port is a command word (rule R44). -/
theorem wordOfNumber_of_lt {n : Nat} (h : n < 2 ^ 34) :
    wordOfNumber n = .ok (BitVec.ofNat 34 n) := if_pos (decide_eq_true h)

/-- A number that does not fit the port is none (rule R44). -/
theorem wordOfNumber_of_ge {n : Nat} (h : 2 ^ 34 ≤ n) :
    wordOfNumber n = .error .notACommandWord :=
  if_neg fun hlt => absurd (of_decide_eq_true hlt) (not_lt.mpr h)

end Sys2Proof

namespace Sys2Proof.Machine

/-- Settles O6: a number below `2 ^ 34` is put before the waiting samples and is the next one taken;
any other leaves none waiting. -/
theorem presentedNumberRuns : Obligations.PresentedNumberRuns := by
  intro s nbits w hw
  rw [decodeTableWord, State.withFetchWord, Nat.mod_eq_of_lt hw, decodeNumber, presentNumber]
  constructor
  · intro hfits
    rw [wordOfNumber_of_lt hfits]
    exact ⟨rfl, (step_cons s.block _ s.inputs).trans (clock_eq_exec rfl s)⟩
  · intro hlarge
    rw [wordOfNumber_of_ge hlarge]
    exact ⟨rfl, step_nil s.block⟩

end Sys2Proof.Machine
end

section
/-! What the state reports after a start: the samples that follow without another start act as their
commands, and a command list acts on `ACC` and on each flag by what it feeds and checks (rules R15,
R16, R80). -/

namespace Sys2Proof.Machine

/-- The registers after two lists of samples, part by part. -/
theorem clockedAll_append (ps qs : List Sample) (r : Regs) :
    r.clockedAll (ps ++ qs) = (r.clockedAll ps).clockedAll qs := by
  unfold Regs.clockedAll
  rw [List.foldl_append]

theorem clockedAll_cons (p : Sample) (ps : List Sample) (r : Regs) :
    r.clockedAll (p :: ps) = (r.clocked p).clockedAll ps := rfl

/-- A starting sample forgets the registers (rules R24, R60). -/
theorem clocked_of_restarts {p : Sample} (hp : p.restarts = true) (r : Regs) :
    r.clocked p = Regs.start := by
  rw [Regs.clocked]
  split
  · rfl
  · next hrst =>
    rw [((restarts_iff p).mp hp).resolve_left hrst]
    rfl

/-- Samples without a start run their commands, none of which is INIT (rule R22). -/
theorem clockedAll_of_not_restarts {ps : List Sample} (h : ∀ p ∈ ps, p.restarts = false)
    (r : Regs) : r.clockedAll ps = r.afterAll (commandsOf ps) ∧ .init ∉ commandsOf ps := by
  induction ps generalizing r with
  | nil => exact ⟨rfl, List.not_mem_nil⟩
  | cons p ps ih =>
    obtain ⟨hp, hps⟩ := List.forall_mem_cons.mp h
    obtain ⟨hrst, hinit⟩ := not_or.mp (mt (restarts_iff p).mpr (Bool.eq_false_iff.mp hp))
    obtain ⟨hrest, hmem⟩ := ih hps (r.clocked p)
    refine ⟨?_, List.not_mem_cons_of_ne_of_not_mem (Ne.symm hinit) hmem⟩
    have hclock : r.clocked p = r.after (decode p.cmd) := if_neg hrst
    exact hrest.trans (congrArg (Regs.afterAll (commandsOf ps)) hclock)

/-- What a list of commands feeds, from the first on (rule R80). -/
theorem bytesOf_cons (c : Instr) (cs : List Instr) :
    bytesOf (c :: cs) = bytesOf [c] ++ bytesOf cs := by
  cases c <;> rfl

/-- A CHK among the commands differs from the CRC of what was fed before it to a register that held
`a` (rules R15, R80). -/
def MismatchFrom (a : Word) (cs : List Instr) : Prop :=
  ∃ pre e post, cs = pre ++ .chk e :: post ∧ finalize (absorb a (bytesOf pre)) ≠ e

/-- After a start that is `SomeMismatch`. -/
theorem mismatchFrom_start_iff (cs : List Instr) :
    MismatchFrom Regs.start.acc cs ↔ SomeMismatch cs := Iff.rfl

theorem not_mismatchFrom_nil (a : Word) : ¬ MismatchFrom a [] :=
  fun ⟨_, _, _, h, _⟩ => List.append_ne_nil_of_right_ne_nil _ (List.cons_ne_nil _ _) h.symm

/-- The difference is found by the first command or by a later one, on the register the first
leaves. -/
theorem mismatchFrom_cons (a : Word) (c : Instr) (cs : List Instr) :
    MismatchFrom a (c :: cs) ↔
      (∃ e, c = .chk e ∧ finalize a ≠ e) ∨ MismatchFrom (absorb a (bytesOf [c])) cs := by
  constructor
  · rintro ⟨_ | ⟨c', pre⟩, e, post, hcs, hne⟩
    · cases hcs
      exact .inl ⟨e, rfl, hne⟩
    · cases hcs
      rw [bytesOf_cons, absorb_append] at hne
      exact .inr ⟨pre, e, post, rfl, hne⟩
  · rintro (⟨e, rfl, hne⟩ | ⟨pre, e, post, rfl, hne⟩)
    · exact ⟨[], e, cs, rfl, hne⟩
    · rw [← absorb_append, ← bytesOf_cons] at hne
      exact ⟨c :: pre, e, post, rfl, hne⟩

/-- A CHK is the first command or a later one (rule R16). -/
theorem someCheck_cons (c : Instr) (cs : List Instr) :
    SomeCheck (c :: cs) ↔ (∃ e, c = .chk e) ∨ SomeCheck cs := by
  simp only [SomeCheck, List.mem_cons, exists_or, eq_comm]

theorem not_someCheck_nil : ¬ SomeCheck [] := fun ⟨_, h⟩ => List.not_mem_nil h

/-- A command other than INIT adds to each element what it feeds, finds and checks (rules R14 to
R16). -/
theorem after_of_ne_init {i : Instr} (hi : i ≠ .init) (r : Regs) :
    (r.after i).acc = absorb r.acc (bytesOf [i]) ∧
    ((r.after i).mm = true ↔ r.mm = true ∨ ∃ e, i = .chk e ∧ finalize r.acc ≠ e) ∧
    ((r.after i).ck = true ↔ r.ck = true ∨ ∃ e, i = .chk e) := by
  cases i with
  | nop => simp [Regs.after, bytesOf]
  | init => exact absurd rfl hi
  | upd8 d => simp [Regs.after, bytesOf, absorb_cons]
  | chk e => simp [Regs.after, bytesOf]

/-- A command list without INIT adds to each element what it feeds, finds and checks (rules R14 to
R16, R80). -/
theorem afterAll_of_init_not_mem {cs : List Instr} (h : .init ∉ cs) (r : Regs) :
    (r.afterAll cs).acc = absorb r.acc (bytesOf cs) ∧
    ((r.afterAll cs).mm = true ↔ r.mm = true ∨ MismatchFrom r.acc cs) ∧
    ((r.afterAll cs).ck = true ↔ r.ck = true ∨ SomeCheck cs) := by
  induction cs generalizing r with
  | nil =>
    exact ⟨rfl, (or_iff_left (not_mismatchFrom_nil _)).symm, (or_iff_left not_someCheck_nil).symm⟩
  | cons c cs ih =>
    obtain ⟨hc, hcs⟩ := List.ne_and_not_mem_of_not_mem_cons h
    obtain ⟨acc, mm, ck⟩ := after_of_ne_init (Ne.symm hc) r
    obtain ⟨acc_rest, mm_rest, ck_rest⟩ := ih hcs (r.after c)
    rw [acc] at acc_rest mm_rest
    rw [bytesOf_cons, absorb_append, mismatchFrom_cons, someCheck_cons, ← or_assoc, ← or_assoc,
      ← mm, ← ck]
    exact ⟨acc_rest, mm_rest, ck_rest⟩

/-- Settles O26: a start forgets what ran before; each command after it adds its part. -/
theorem stateReportsSinceStart : Obligations.StateReportsSinceStart := by
  intro before after p s hs hp hafter
  obtain ⟨r, hr⟩ := (isDefined_iff s).mp hs
  obtain ⟨hcommands, hinit⟩ := clockedAll_of_not_restarts hafter Regs.start
  obtain ⟨acc, mm, ck⟩ := afterAll_of_init_not_mem hinit Regs.start
  refine ⟨Regs.start.afterAll (commandsOf after), ?_, acc, congrArg finalize acc, ?_, ?_⟩
  · rw [hr, runSamples_defined, clockedAll_append, clockedAll_cons, clocked_of_restarts hp,
      hcommands]
  · exact (mm.trans (or_iff_right Bool.false_ne_true)).trans (mismatchFrom_start_iff _)
  · exact ck.trans (or_iff_right Bool.false_ne_true)

end Sys2Proof.Machine
end

section
/-! The updates are bijections of the register (rule R75), so four bytes reach every value, and the
residue tells the crc bytes of a message. -/

namespace Sys2Proof.Machine

/-- `step1Inv` is a left inverse of the one-bit update (rule R75). -/
theorem step1Inv_step1 (a : Word) : step1Inv (step1 a) = a := by
  refine BitVec.eq_of_getLsbD_eq fun j hj => ?_
  cases j with
  | zero => rw [getLsbD_step1Inv_zero, getLsbD_step1_top]
  | succ j =>
    rw [getLsbD_step1Inv_succ _ (by omega), getLsbD_step1_top, getLsbD_step1, Bool.xor_assoc,
      Bool.xor_self, Bool.xor_false]

/-- Settles O37: bit by bit, the term of `POLY_R` enters twice and cancels. -/
theorem bitUpdateInvertible : Obligations.BitUpdateInvertible :=
  ⟨step1Inv_step1, step1_step1Inv, fun _ => rfl⟩

theorem step1N_bijective (k : Nat) : Function.Bijective (step1N k) := by
  refine ⟨?_, step1N_surjective k⟩
  induction k with
  | zero => exact Function.injective_id
  | succ k ih => exact ih.comp (Function.LeftInverse.injective step1Inv_step1)

theorem xor_right_involutive (v : Word) : Function.Involutive fun a : Word => a ^^^ v :=
  fun a => (BitVec.xor_assoc a v v).trans (by rw [BitVec.xor_self, BitVec.xor_zero])

/-- Absorbing a fixed byte is a bijection of the register, in either form (rule R75). -/
theorem step8_bijective (x : Config.Impl) (d : Byte) :
    Function.Bijective fun a : Word => step8 x a d := by
  simp only [step8_eq_step8Bitwise]
  exact (step1N_bijective 8).comp (xor_right_involutive (zext32 d)).bijective

/-- Absorbing a fixed byte string is a bijection of the register (rule R75). -/
theorem absorb_bijective (m : List Byte) : Function.Bijective fun a : Word => absorb a m := by
  induction m with
  | nil => exact Function.bijective_id
  | cons b m ih => exact ih.comp (step8_bijective Config.impl b)

/-- Settles O38: each is a composition of bijections. -/
theorem absorbBijective : Obligations.AbsorbBijective := ⟨step8_bijective, absorb_bijective⟩

/-- Four low bytes are all of a value, least significant first (rule R32). -/
theorem lowBytes_four (w : Word) : lowBytes 4 w = (be32 w).reverse := by
  have low (k : Nat) : (w >>> k).extractLsb' 0 8 = w.extractLsb' k 8 :=
    (BitVec.setWidth_eq_extractLsb' (by decide)).symm.trans
      BitVec.setWidth_ushiftRight_eq_extractLsb
  simp only [lowBytes, ← BitVec.shiftRight_add, low]
  rfl

/-- Absorbing the bytes of a value, least significant first, enters the value on the register's byte
lanes (rule R75). -/
theorem absorb_reverse_be32 (a w : Word) : absorb a (be32 w).reverse = step1N 32 (a ^^^ w) := by
  have enter := absorb_xor_lowBytes 4 (a ^^^ w) w
  rwa [BitVec.xor_assoc, BitVec.xor_self, BitVec.xor_zero, lowBytes_four,
    BitVec.ushiftRight_eq_zero (le_refl 32), BitVec.xor_zero] at enter

/-- Any four bytes are those of a value, least significant first (rule R33). -/
theorem exists_eq_reverse_be32 {m : List Byte} (h : m.length = 4) : ∃ w, m = (be32 w).reverse := by
  obtain ⟨b0, b1, b2, b3, rfl⟩ := List.length_eq_four.mp h
  exact ⟨fromBe32 b3 b2 b1 b0, by rw [be32_fromBe32]; rfl⟩

/-- Different values have different bytes (rule R33). -/
theorem be32_injective : Function.Injective be32 := fun v w h => by
  rw [← fromBe32_extractLsb' w]
  exact (be32_eq_iff.mp h).symm

/-- The value that takes one register content to another (rule R75). -/
theorem absorb_reverse_be32_eq_iff {a x w : Word} :
    absorb a (be32 w).reverse = step1N 32 x ↔ w = x ^^^ a := by
  rw [absorb_reverse_be32, (step1N_bijective 32).injective.eq_iff, BitVec.xor_comm]
  exact (xor_right_involutive a).eq_iff

/-- Exactly one string of four bytes takes the register from `a` to `v` (rule R75). -/
theorem existsUnique_four_bytes (a v : Word) : ∃! m : List Byte, m.length = 4 ∧ absorb a m = v := by
  obtain ⟨x, rfl⟩ := step1N_surjective 32 v
  refine ⟨(be32 (x ^^^ a)).reverse, ⟨rfl, absorb_reverse_be32_eq_iff.mpr rfl⟩, ?_⟩
  rintro m ⟨hlength, habsorb⟩
  obtain ⟨w, rfl⟩ := exists_eq_reverse_be32 hlength
  rw [absorb_reverse_be32_eq_iff.mp habsorb]

/-- Settles O39: the four bytes stand on the byte lanes of one value, and 32 updates are a
bijection. -/
theorem fourBytesReachEveryValue : Obligations.FourBytesReachEveryValue := by
  refine ⟨fun a b0 b1 b2 b3 => ?_, existsUnique_four_bytes, by decide +kernel⟩
  have lanes := absorb_reverse_be32 a (fromBe32 b3 b2 b1 b0)
  rw [be32_fromBe32] at lanes
  exact lanes

/-- Four bytes after a message leave the residue exactly when they are its crc bytes, least
significant first: the residue is 32 updates of all ones. -/
theorem absorb_append_eq_residue_iff (m : List Byte) {bs : List Byte} (h : bs.length = 4) :
    absorb 0xFFFFFFFF (m ++ bs) = 0xDEBB20E3 ↔ bs = (be32 (crc32 m)).reverse := by
  have residue : (0xDEBB20E3 : Word) = step1N 32 Config.xorOut := by decide +kernel
  obtain ⟨w, rfl⟩ := exists_eq_reverse_be32 h
  rw [absorb_append, residue, absorb_reverse_be32_eq_iff, List.reverse_inj, be32_injective.eq_iff,
    BitVec.xor_comm]
  rfl

theorem crc32_workedChunk : crc32 workedChunk.message = 0xABD1D84E :=
  (congrArg finalize absorb_workedChunk).trans (by decide)

/-- Settles O55: by the bijection, one string of four bytes leaves the residue; the two values in
file order are computed. -/
theorem residueExactlyForReversedCrcBytes : Obligations.ResidueExactlyForReversedCrcBytes := by
  refine ⟨fun m _ => absorb_append_eq_residue_iff m, ?_, by decide +kernel⟩
  rw [absorb_append, absorb_workedChunk, crc32_workedChunk]
  decide +kernel

end Sys2Proof.Machine
end

section
/-! The parameter-set form of the CRC is the bit-reversed image of the block's (rule R3). -/

namespace Sys2Proof.Machine

theorem reverse_xor {w : Nat} (u v : BitVec w) : (u ^^^ v).reverse = u.reverse ^^^ v.reverse := by
  ext j
  simp only [BitVec.getElem_xor, BitVec.getElem_reverse, BitVec.getMsbD_xor]

theorem reverse_shiftLeft {w : Nat} (a : BitVec w) (k : Nat) :
    (a <<< k).reverse = a.reverse >>> k := by
  refine BitVec.eq_of_getLsbD_eq fun j _ => ?_
  rw [BitVec.getLsbD_ushiftRight, BitVec.getLsbD_reverse, BitVec.getLsbD_reverse,
    BitVec.getMsbD_shiftLeft, Nat.add_comm]

/-- `POLY_R` is the polynomial bit-reversed (rule R3). -/
theorem polyR_eq_reverse : Config.polyR = (0x04C11DB7 : Word).reverse := by decide +kernel

/-- The left shift with the polynomial is the one-bit update, bit-reversed (rule R3). -/
theorem reverse_isoHdlc_shift (k : Nat) (a : Word) :
    (isoHdlc.shift k a).reverse = step1N k a.reverse := by
  induction k generalizing a with
  | zero => rfl
  | succ k ih =>
    have top : a.reverse.getLsbD 0 = a.getLsbD 31 := BitVec.getLsbD_reverse.trans rfl
    rw [Params.shift, ih, step1N_succ, step1, top, polyR_eq_reverse]
    split
    · rw [reverse_xor, reverse_shiftLeft]
      rfl
    · rw [reverse_shiftLeft]

/-- A reversed byte at the top of the register is, bit-reversed, the byte at the bottom. -/
theorem reverse_zeroExtend_shiftLeft (b : Byte) :
    (b.reverse.zeroExtend 32 <<< 24).reverse = zext32 b := by
  rw [reverse_shiftLeft]
  refine BitVec.eq_of_getLsbD_eq fun j hj => ?_
  rw [BitVec.getLsbD_ushiftRight, BitVec.getLsbD_reverse, BitVec.zeroExtend,
    BitVec.getMsbD_setWidth, decide_eq_true (by omega), Bool.true_and, Nat.add_right_comm,
    Nat.add_sub_cancel_left, BitVec.getMsbD_reverse, getLsbD_zext32]

/-- Feeding a byte to the parameter-set form is absorbing it, bit-reversed. -/
theorem reverse_isoHdlc_feed (a : Word) (b : Byte) :
    (isoHdlc.feed a b).reverse = step8 Config.impl a.reverse b := by
  rw [Params.feed, reverse_isoHdlc_shift, reverse_xor, step8_impl]
  exact congrArg (fun v => step1N 8 (a.reverse ^^^ v)) (reverse_zeroExtend_shiftLeft b)

/-- So is a byte string. -/
theorem reverse_isoHdlc_register (m : List Byte) (a : Word) :
    (isoHdlc.register a m).reverse = absorb a.reverse m := by
  induction m generalizing a with
  | nil => rfl
  | cons b m ih => rw [Params.register, ih, reverse_isoHdlc_feed, absorb_cons]

/-- The block's function is the CRC of the parameter set (rule R3). -/
theorem isoHdlc_crc (m : List Byte) : isoHdlc.crc m = crc32 m := by
  have start : isoHdlc.init.reverse = Config.initV := by decide +kernel
  have register := reverse_isoHdlc_register m isoHdlc.init
  rw [start] at register
  exact congrArg finalize register

/-- Settles O44: bit-reversal turns each left shift of the parameter-set form into the update of the
block. -/
theorem functionMatchesParameterSet : Obligations.FunctionMatchesParameterSet :=
  ⟨polyR_eq_reverse, rfl, isoHdlc_crc⟩

end Sys2Proof.Machine
end

section
/-! The layout of a chunk and its slicing: what the bytes of a chunk are cut into, and what was cut
is what stands there (rules R32, R33, R35, R85, R96). -/

namespace Sys2Proof.Machine

@[simp] theorem length_be32 (v : Word) : (be32 v).length = 4 := rfl

@[simp] theorem length_bytes (t : ChunkType) : t.bytes.length = 4 := rfl

/-- The four stored bytes are the layout of the stored value (rule R33). -/
theorem be32_stored (r : RawChunk) : be32 r.stored = [r.c0, r.c1, r.c2, r.c3] := be32_fromBe32 ..

/-- The length field of a payload that fits is its length (rule R35). -/
theorem toNat_length {c : Chunk} (h : c.fits = true) : c.length.toNat = c.payload.length := by
  rw [Chunk.length, BitVec.toNat_ofNat, Nat.mod_eq_of_lt (of_decide_eq_true h)]

/-- Too few payload bytes (rules R85 step 3, R96). -/
theorem sliceChunk_of_short_payload {n : Word} {tail : List Byte} (h : tail.length < n.toNat)
    (t : ChunkType) : sliceChunk (be32 n ++ t.bytes ++ tail) = .error .truncatedInput := by
  simp only [be32, ChunkType.bytes, List.cons_append, List.nil_append, sliceChunk,
    fromBe32_extractLsb', if_pos h]

/-- Enough payload bytes, but too few after them (rules R85 step 4, R96). -/
theorem sliceChunk_of_short_crc {n : Word} {tail : List Byte} (h : n.toNat ≤ tail.length)
    (hcrc : tail.length < n.toNat + 4) (t : ChunkType) :
    sliceChunk (be32 n ++ t.bytes ++ tail) = .error .missingChecksum := by
  simp only [be32, ChunkType.bytes, List.cons_append, List.nil_append, sliceChunk,
    fromBe32_extractLsb', if_neg (not_lt.mpr h)]
  split
  · next c0 c1 c2 c3 rest hdrop =>
    have := congrArg List.length hdrop
    simp only [List.length_drop, List.length_cons] at this
    omega
  · rfl

/-- The bytes of a chunk are cut into the chunk, its crc bytes and what follows (rule R85). -/
theorem sliceChunk_wire (r : RawChunk) (hfits : r.chunk.fits = true) (rest : List Byte) :
    sliceChunk (r.chunk.wire r.stored ++ rest) = .ok (r, rest) := by
  have hlen := toNat_length hfits
  have enough : ¬ (r.chunk.payload ++ r.c0 :: r.c1 :: r.c2 :: r.c3 :: rest).length <
      r.chunk.length.toNat := by
    rw [List.length_append, hlen]
    omega
  rw [Chunk.wire, be32_stored]
  simp only [be32, ChunkType.bytes, List.cons_append, List.nil_append, List.append_assoc,
    sliceChunk, fromBe32_extractLsb', if_neg enough]
  rw [hlen, List.drop_left, List.take_left]

/-- What was cut out stands at the head of the input (rules R35, R85). -/
theorem eq_wire_of_sliceChunk {bs rest : List Byte} {r : RawChunk}
    (h : sliceChunk bs = .ok (r, rest)) :
    bs = r.chunk.wire r.stored ++ rest ∧ r.chunk.fits = true := by
  unfold sliceChunk at h
  split at h
  · next l0 l1 l2 l3 t0 t1 t2 t3 tail =>
    dsimp only at h
    split at h
    · cases h
    · next enough =>
      split at h
      · next c0 c1 c2 c3 rest' hdrop =>
        cases h
        have hpayload : (tail.take (fromBe32 l0 l1 l2 l3).toNat).length =
            (fromBe32 l0 l1 l2 l3).toNat := List.length_take_of_le (not_lt.mp enough)
        refine ⟨?_, decide_eq_true (lt_of_eq_of_lt hpayload (BitVec.isLt _))⟩
        rw [Chunk.wire, be32_stored, Chunk.length, hpayload, BitVec.ofNat_toNat, BitVec.setWidth_eq,
          be32_fromBe32]
        simp only [ChunkType.bytes, List.cons_append, List.nil_append, List.append_assoc]
        rw [← hdrop, List.take_append_drop]
      · cases h
  · cases h

/-- The layout as length, message, crc (rules R30, R35). -/
theorem wire_eq_append (c : Chunk) (v : Word) :
    c.wire v = be32 c.length ++ (c.message ++ be32 v) := by
  rw [Chunk.wire, Chunk.message, List.append_assoc, List.append_assoc, List.append_assoc]

theorem length_message (c : Chunk) : c.message.length = 4 + c.payload.length :=
  List.length_append

/-- A chunk with any crc is some cut-out chunk that stores it (rule R33). -/
theorem exists_rawChunk (c : Chunk) (v : Word) : ∃ r : RawChunk, r.chunk = c ∧ r.stored = v :=
  ⟨⟨c, v.extractLsb' 24 8, v.extractLsb' 16 8, v.extractLsb' 8 8, v.extractLsb' 0 8⟩, rfl,
    fromBe32_extractLsb' v⟩

/-- Settles O47: the fields have fixed lengths but for the payload, whose length is the first. -/
theorem chunkLayout : Obligations.ChunkLayout := by
  intro c v rest hfits
  have hmessage := length_message c
  refine ⟨?_, ?_, ?_, ?_, ?_⟩
  · simp only [wire_eq_append, List.length_append, length_be32, hmessage]
    omega
  · rw [wire_eq_append]
    exact List.take_left' rfl
  · rw [wire_eq_append, List.drop_left' (length_be32 _), List.take_left' hmessage]
  · rw [wire_eq_append, ← List.append_assoc]
    refine List.drop_left' ?_
    rw [List.length_append, hmessage, length_be32]
    omega
  · obtain ⟨r, rfl, rfl⟩ := exists_rawChunk c v
    exact ⟨r, sliceChunk_wire r hfits rest, rfl, rfl⟩

end Sys2Proof.Machine
end

section
/-! The host's procedures: generating, verifying one chunk, verifying a list of chunks (rules R81,
R85 to R87, R106, R107). -/

namespace Sys2Proof.Machine

/-- The state after the check of a cut-out chunk, `MM` as given (rule R107). -/
def checkedState (r : RawChunk) (mm : Bool) (s : State) : State :=
  { s with block := .defined ⟨absorb Config.initV r.chunk.message, mm, true⟩ }

theorem accepts_checkedState (r : RawChunk) (mm : Bool) (s : State) :
    (checkedState r mm s).accepts = !mm := by
  cases mm <;> rfl

/-- Generating feeds the message (rules R30, R106). -/
theorem generateCmds_eq (c : Chunk) : generateCmds c = .init :: c.message.map .upd8 := by
  rw [generateCmds, feed, feed, ← List.map_append, Chunk.message]

/-- Verifying feeds the message and checks the stored crc (rule R107). -/
theorem run_verifyCmds (r : RawChunk) (s : State) :
    run (verifyCmds r) s =
      .next (checkedState r (crc32 r.chunk.message != r.stored) s) := by
  rw [verifyCmds, generateCmds_eq]
  exact run_check_message r.chunk.message r.stored s

/-- Verifying a chunk with the CRC of its message (rules R85 to R87). -/
theorem verifyRaw_of_eq {r : RawChunk} (h : r.stored = crc32 r.chunk.message) (s : State) :
    verifyRaw r s = some (.pass, checkedState r false s) := by
  rw [verifyRaw, run_verifyCmds, h, bne_self_eq_false]
  rfl

/-- Verifying a chunk with any other crc (rules R85 to R87). -/
theorem verifyRaw_of_ne {r : RawChunk} (h : r.stored ≠ crc32 r.chunk.message) (s : State) :
    verifyRaw r s = some (.fail, checkedState r true s) := by
  rw [verifyRaw, run_verifyCmds, bne_iff_ne.mpr h.symm]
  rfl

theorem decodeChunk_of_error {bs : List Byte} {e : ChunkError} (h : sliceChunk bs = .error e)
    (s : State) : decodeChunk bs s = .failed e s := by
  rw [decodeChunk, h]

theorem decodeChunk_of_eq {bs rest : List Byte} {r : RawChunk}
    (hslice : sliceChunk bs = .ok (r, rest)) (hcrc : r.stored = crc32 r.chunk.message) (s : State) :
    decodeChunk bs s =
      .accepted r.chunk.length r.chunk r.stored rest (checkedState r false s) := by
  simp only [decodeChunk, hslice, verifyRaw_of_eq hcrc]

theorem decodeChunk_of_ne {bs rest : List Byte} {r : RawChunk}
    (hslice : sliceChunk bs = .ok (r, rest)) (hcrc : r.stored ≠ crc32 r.chunk.message) (s : State) :
    decodeChunk bs s = .failed .checksumMismatch (checkedState r true s) := by
  simp only [decodeChunk, hslice, verifyRaw_of_ne hcrc]

/-- How verifying the chunk at the head of an input can end (rules R85, R86). -/
theorem decodeChunk_cases (bs : List Byte) (s : State) :
    (∃ e t, decodeChunk bs s = .failed e t) ∨
      ∃ r rest, sliceChunk bs = .ok (r, rest) ∧ r.stored = crc32 r.chunk.message ∧
        decodeChunk bs s =
          .accepted r.chunk.length r.chunk r.stored rest (checkedState r false s) := by
  cases hslice : sliceChunk bs with
  | error e => exact .inl ⟨e, s, decodeChunk_of_error hslice s⟩
  | ok p =>
    obtain ⟨r, rest⟩ := p
    by_cases hcrc : r.stored = crc32 r.chunk.message
    · exact .inr ⟨r, rest, rfl, hcrc, decodeChunk_of_eq hslice hcrc s⟩
    · exact .inl ⟨_, _, decodeChunk_of_ne hslice hcrc s⟩

/-- Settles O48: the length is held against what is left, then the crc field. -/
theorem slicingErrors : Obligations.SlicingErrors := fun t _ _ s =>
  ⟨fun h => decodeChunk_of_error (sliceChunk_of_short_payload h t) s,
    fun h hcrc => decodeChunk_of_error (sliceChunk_of_short_crc h hcrc t) s⟩

/-- Generating completes from every state (rule R106). -/
theorem generate_eq (c : Chunk) (s : State) :
    generate c s = some (c.wire (crc32 c.message),
      { s with block := .defined ⟨absorb Config.initV c.message, false, false⟩ }) := by
  simp only [generate, generateCmds_eq, run_init, afterAll_upd8, crcOut_defined, Option.map_some]
  rfl

/-- Settles O49: the crc field generated is the one the check compares with. -/
theorem generateThenVerify : Obligations.GenerateThenVerify := by
  intro c s u rest hfits
  refine ⟨⟨_, generate_eq c s, rfl, rfl⟩, ?_⟩
  obtain ⟨r, rfl, hstored⟩ := exists_rawChunk c (crc32 c.message)
  rw [← hstored]
  exact ⟨_, decodeChunk_of_eq (sliceChunk_wire r hfits rest) hstored u,
    accepts_checkedState r false u⟩

/-- Different bytes take the register to different values (rule R75). -/
theorem step8_byte_injective (x : Config.Impl) (a : Word) :
    Function.Injective fun d : Byte => step8 x a d := by
  intro d e h
  simp only [step8_eq_step8Bitwise] at h
  have entered := (BitVec.xor_right_inj a).mp ((step1N_bijective 8).injective h)
  refine BitVec.eq_of_getLsbD_eq fun j _ => ?_
  rw [← getLsbD_zext32, entered, getLsbD_zext32]

/-- A single changed byte changes the CRC (rule R87): what follows it is absorbed by a bijection. -/
theorem crc32_ne_of_byte_ne {b b' : Byte} (h : b ≠ b') (before after : List Byte) :
    crc32 (before ++ b :: after) ≠ crc32 (before ++ b' :: after) := by
  intro heq
  have absorbed := finalize_injective heq
  rw [absorb_append, absorb_append, absorb_cons, absorb_cons] at absorbed
  exact h (step8_byte_injective _ _ ((absorb_bijective after).injective absorbed))

/-- Settles O50: the check passes only for the CRC of the message fed. -/
theorem singleChangeDetected : Obligations.SingleChangeDetected := by
  have detected {r : RawChunk} (h : r.stored ≠ crc32 r.chunk.message) (s : State) :
      ∃ t, verifyRaw r s = some (.fail, t) ∧ t.accepts = false :=
    ⟨_, verifyRaw_of_ne h s, accepts_checkedState r true s⟩
  refine ⟨fun _ s h => detected h s,
    fun r s before after b b' hne hmessage hstored => detected ?_ s⟩
  rw [hmessage, hstored]
  exact crc32_ne_of_byte_ne hne before after

/-- Settles O52: a procedure that accepts has cut out the chunk and passed its check. -/
theorem onlyCheckedChunksAccepted : Obligations.OnlyCheckedChunksAccepted := by
  constructor
  · intro bs rest s t l crc c h
    obtain ⟨e, u, hfailed⟩ | ⟨r, _, hslice, hcrc, haccepted⟩ := decodeChunk_cases bs s
    · cases hfailed.symm.trans h
    · cases haccepted.symm.trans h
      obtain ⟨hbytes, hfits⟩ := eq_wire_of_sliceChunk hslice
      exact ⟨hbytes, hcrc, rfl, hfits, accepts_checkedState r false s⟩
  · intro bs s h
    obtain ⟨e, u, hfailed⟩ | ⟨r, _, _, _, haccepted⟩ := decodeChunk_cases bs s
    · cases hfailed.symm.trans h
    · cases haccepted.symm.trans h

/-- A chunk that passes is counted, and the rest of the file is verified (rule R107). -/
theorem verifyAll_cons_of_eq {r : RawChunk} (h : r.stored = crc32 r.chunk.message)
    (rs : List RawChunk) (s : State) :
    verifyAll (r :: rs) s =
      (verifyAll rs (checkedState r false s)).map fun p => (p.1.map (· + 1), p.2) := by
  simp only [verifyAll, verifyRaw_of_eq h]
  cases verifyAll rs (checkedState r false s) <;> rfl

/-- The host stops at a chunk that fails (rule R107). -/
theorem verifyAll_cons_of_ne {r : RawChunk} (h : r.stored ≠ crc32 r.chunk.message)
    (rs : List RawChunk) (s : State) :
    verifyAll (r :: rs) s = some (some 0, checkedState r true s) := by
  rw [verifyAll, verifyRaw_of_ne h]

/-- Settles O53: by induction on the file; the first chunk ends it, or leaves the rest to go on from
its check. -/
theorem fileStopsAtFirstBadChunk : Obligations.FileStopsAtFirstBadChunk := by
  intro rs
  induction rs with
  | nil => exact fun s => ⟨s, rfl, rfl, nofun, nofun, fun _ => rfl⟩
  | cons r rs ih =>
    intro s
    simp only [List.findIdx?_cons]
    by_cases h : r.stored = crc32 r.chunk.message
    · have good : (r.stored != crc32 r.chunk.message) = false := by rw [h, bne_self_eq_false]
      obtain ⟨t, hverify, hinputs, hfail, hpass, hnil⟩ := ih (checkedState r false s)
      rw [verifyAll_cons_of_eq h, hverify, good, if_neg Bool.false_ne_true]
      refine ⟨t, rfl, hinputs, fun k q hk hq => ?_, fun q hnone hlast => ?_, nofun⟩
      · obtain ⟨j, hj, rfl⟩ := Option.map_eq_some_iff.mp hk
        exact hfail j q hj hq
      · cases rs with
        | nil =>
          cases hlast
          rw [hnil rfl]
          rfl
        | cons q' rs => exact hpass q (Option.map_eq_none_iff.mp hnone) hlast
    · rw [verifyAll_cons_of_ne h, if_pos (bne_iff_ne.mpr h)]
      refine ⟨checkedState r true s, rfl, rfl, fun k q hk hq => ?_, nofun, nofun⟩
      cases hk
      cases hq
      rfl

end Sys2Proof.Machine
end

section
/-! The hazard of a missing INIT, what a written line stands for, and the near variants (rules
R52, R53). -/

namespace Sys2Proof.Machine

theorem afterAll_cons (c : Instr) (cs : List Instr) (r : Regs) :
    r.afterAll (c :: cs) = (r.after c).afterAll cs := rfl

/-- Settles O54: nothing but INIT clears the register, and the one comparison was made before the
second message. -/
theorem missingInitConcatenates : Obligations.MissingInitConcatenates := by
  intro x y e s
  have both : crc32 (x ++ y) ^^^ 0xFFFFFFFF = absorb (absorb Config.initV x) y :=
    (finalize_finalize _).trans (absorb_append _ x y)
  rw [run_init, afterAll_append, afterAll_upd8, afterAll_cons, afterAll_upd8, both, bne_comm]
  rfl

/-- A RESET line is a reset step from every state (rules R52, R104). -/
theorem runSamples_resetSample (s : State) :
    runSamples [resetSample] s = .next (startMessage s) := runSamples_restarts rfl [] s

/-- Settles O56: each line's samples are the canonical ones of its commands. -/
theorem pseudoCommandsExpand : Obligations.PseudoCommandsExpand := by
  intro s i m p t0 t1 t2 t3 c0 c1 c2 c3
  exact ⟨runSamples_map_sampleOf [i] s, runSamples_resetSample s, runSamples_map_sampleOf _ s,
    runSamples_map_sampleOf _ s, runSamples_map_sampleOf _ s, runSamples_map_sampleOf _ s,
    runSamples_map_sampleOf _ s⟩

/-- Settles O45: each value is computed from its parameter set. -/
theorem nearVariantsDiffer : Obligations.NearVariantsDiffer := by
  unfold Obligations.NearVariantsDiffer
  decide +kernel

/-- Settles O57: each line is read. -/
theorem writtenLinesRead : Obligations.WrittenLinesRead := by
  unfold Obligations.WrittenLinesRead
  decide +kernel

end Sys2Proof.Machine
end

section
/-! A difference confined to 32 consecutive message bits changes the CRC (rule R87): as a polynomial
it is a power of `x` times one of degree below 32, and `G(x)` divides neither. -/

namespace Sys2Proof.Machine

open Polynomial

/-- Bit `i` of a message, in the order the bits enter the register (rule R74). -/
def messageBit (m : List Byte) (i : ℕ) : Bool := (m.getD (i / 8) 0).getLsbD (i % 8)

/-- The first bit of a message is the coefficient of the highest power (rule R74). -/
theorem coeff_messagePoly (m : List Byte) {i : ℕ} (hi : i < 8 * m.length) :
    (messagePoly m).coeff (8 * m.length - 1 - i) = if messageBit m i = true then 1 else 0 := by
  rw [messagePoly, finsetSum_coeff, Finset.sum_eq_single_of_mem i (Finset.mem_range.mpr hi),
    coeff_bitTerm_self, messageBit]
  intro j hj hne
  have := Finset.mem_range.mp hj
  exact coeff_bitTerm_of_ne _ (by omega)

theorem coeff_messagePoly_of_ge (m : List Byte) {e : ℕ} (he : 8 * m.length ≤ e) :
    (messagePoly m).coeff e = 0 := by
  rw [messagePoly, finsetSum_coeff]
  refine Finset.sum_eq_zero fun j hj => coeff_bitTerm_of_ne _ ?_
  have := Finset.mem_range.mp hj
  omega

/-- Equal bits give equal coefficients. -/
theorem coeff_messagePoly_congr {m n : List Byte} (hlen : m.length = n.length) {e : ℕ}
    (h : e < 8 * m.length →
      messageBit m (8 * m.length - 1 - e) = messageBit n (8 * m.length - 1 - e)) :
    (messagePoly m).coeff e = (messagePoly n).coeff e := by
  by_cases he : e < 8 * m.length
  · have hi : 8 * m.length - 1 - e < 8 * m.length := by omega
    have hm := coeff_messagePoly m hi
    have hn := coeff_messagePoly n (hlen ▸ hi)
    rw [← hlen] at hn
    rw [show 8 * m.length - 1 - (8 * m.length - 1 - e) = e by omega] at hm hn
    rw [hm, hn, h he]
  · rw [coeff_messagePoly_of_ge m (not_lt.mp he), coeff_messagePoly_of_ge n (hlen ▸ not_lt.mp he)]

/-- A message is determined by its bits. -/
theorem eq_of_messageBit_eq {m n : List Byte} (hlen : m.length = n.length)
    (h : ∀ i < 8 * m.length, messageBit m i = messageBit n i) : m = n := by
  refine List.ext_getElem hlen fun b hm hn => BitVec.eq_of_getLsbD_eq fun j hj => ?_
  have bit := h (8 * b + j) (by omega)
  rwa [messageBit, messageBit, Nat.mul_add_div (by decide), Nat.mul_add_mod, Nat.div_eq_of_lt hj,
    Nat.mod_eq_of_lt hj, Nat.add_zero, List.getD_eq_getElem _ _ hm,
    List.getD_eq_getElem _ _ hn] at bit

/-- A coefficient is 1 exactly when the bit of the message is set. -/
theorem coeff_messagePoly_eq_one_iff (m : List Byte) {i : ℕ} (hi : i < 8 * m.length) :
    (messagePoly m).coeff (8 * m.length - 1 - i) = 1 ↔ messageBit m i = true := by
  rw [coeff_messagePoly m hi]
  cases messageBit m i <;> decide

/-- A message is determined by its length and its polynomial. -/
theorem eq_of_messagePoly_eq {m n : List Byte} (hlen : m.length = n.length)
    (h : messagePoly m = messagePoly n) : m = n := by
  refine eq_of_messageBit_eq hlen fun i hi => Bool.eq_iff_iff.mpr ?_
  rw [← coeff_messagePoly_eq_one_iff m hi, ← coeff_messagePoly_eq_one_iff n (hlen ▸ hi), h, hlen]

/-- `G(x)` has the constant term 1. -/
theorem isCoprime_genPoly_X : IsCoprime genPoly X := by
  refine ⟨1, -(X ^ 31 + X ^ 25 + X ^ 22 + X ^ 21 + X ^ 15 + X ^ 11 + X ^ 10 + X ^ 9 + X ^ 7 +
    X ^ 6 + X ^ 4 + X ^ 3 + X + 1), ?_⟩
  rw [genPoly]
  ring

/-- Messages of one length with one CRC differ by a multiple of `G(x)` (rule R74). -/
theorem genPoly_dvd_messagePoly_sub {m n : List Byte} (hlen : m.length = n.length)
    (h : crc32 m = crc32 n) : genPoly ∣ messagePoly m - messagePoly n := by
  have remainders := congrArg (fun a => AdjoinRoot.mk genPoly (regPoly a)) (finalize_injective h)
  simp only [mk_regPoly_absorb, hlen, AdjoinRoot.mk_eq_mk, add_sub_add_left_eq_sub, ← sub_mul]
    at remainders
  exact isCoprime_genPoly_X.pow_right.dvd_of_dvd_mul_right remainders

/-- A multiple of `G(x)` with its terms within 32 consecutive powers is 0. -/
theorem eq_zero_of_genPoly_dvd {D : (ZMod 2)[X]} (hdvd : genPoly ∣ D) {t : ℕ}
    (low : ∀ e < t, D.coeff e = 0) (high : ∀ e, t + 32 ≤ e → D.coeff e = 0) : D = 0 := by
  obtain ⟨W, rfl⟩ := X_pow_dvd_iff.mpr low
  have small : W.degree < genPoly.degree := by
    rw [degree_genPoly]
    refine (degree_lt_iff_coeff_zero W 32).mpr fun e he => ?_
    rw [← coeff_X_pow_mul W t e, high _ (by omega)]
  rw [eq_zero_of_dvd_of_degree_lt (isCoprime_genPoly_X.pow_right.dvd_of_dvd_mul_left hdvd) small,
    mul_zero]

/-- Settles O51: the difference of two messages with one CRC is a multiple of `G(x)`; within 32
positions only 0 is. -/
theorem burstOf32BitsDetected : Obligations.BurstOf32BitsDetected := by
  intro m n k hlen hne hagree hcrc
  have outside {e : ℕ} (he : e < 8 * m.length - (k + 32) ∨ 8 * m.length - (k + 32) + 32 ≤ e) :
      (messagePoly m - messagePoly n).coeff e = 0 := by
    rw [coeff_sub, sub_eq_zero]
    exact coeff_messagePoly_congr hlen fun hlt => hagree _ (by omega) (by omega)
  have difference := eq_zero_of_genPoly_dvd (genPoly_dvd_messagePoly_sub hlen hcrc)
    (fun e he => outside (.inl he)) (fun e he => outside (.inr he))
  exact hne (eq_of_messagePoly_eq hlen (sub_eq_zero.mp difference))

end Sys2Proof.Machine
end
